-- ==== Sys2Proof/Word.lean ====
section
/-! DEFINITION. The word types of the CRC engine: bytes, the 64-bit carrier of a numeric operand, the 200-bit
command word, its 196-bit payload, the 67-bit response word, and the 256-entry table type. -/

namespace Sys2Proof

/-- One input symbol, 8 bits (R5, R53). -/
abbrev Byte := BitVec 8

/-- The 64-bit carrier in which a `w`-bit value travels zero-extended (R5 `XLEN`, R80). -/
abbrev Word := BitVec 64

/-- The command word `CW`, bit 199 most significant (R71). -/
abbrev CommandWord := BitVec 200

/-- The payload `P = CW[195:0]` (R71). -/
abbrev Payload := BitVec 196

/-- The response word `RW`, 67 bits (R75). -/
abbrev ResponseWord := BitVec 67

/-- The table index space: 256 locations of `w` bits each, indexed by a byte (R28, R50). -/
abbrev Table (w : Nat) := Vector (BitVec w) 256

end Sys2Proof
end

