-- ==== Sys2Proof/Config.lean ====
section
/-! DEFINITION. The closed menu of widths, the configuration value object, and the names of the preset registry.
The block has no free value: the spec says of no behaviour that it is undefined (spec/93_implementation_defined.md).
Its one open constant, the registry `PRESETS`, is an ARGUMENT of the definitions that use it (type `Presets`). -/

namespace Sys2Proof

/-- The legal checksum widths 8, 16, 32 and 64 (R5 `WIDTHS`, R21): a closed menu, held as a 2-bit code (R73). -/
inductive Width where
  | w8
  | w16
  | w32
  | w64
deriving DecidableEq, Repr

/-- `w`, the number of bits of every numeric field and of the running register (R21). -/
def Width.bits : Width → Nat
  | .w8 => 8
  | .w16 => 16
  | .w32 => 32
  | .w64 => 64

/-- The configuration value object (R21 to R26, R100): each numeric field IS a `w`-bit value, so the invariant
"all four numeric fields fit within `width` bits" is structural (R27). -/
structure Configuration where
  width : Width
  polynomial : BitVec width.bits
  initialValue : BitVec width.bits
  finalXorValue : BitVec width.bits
  reflectInput : Bool
  reflectOutput : Bool
deriving DecidableEq, Repr

/-- The type of a register of an engine whose configuration is `c`: `w` bits (R29). -/
abbrev Configuration.Reg (c : Configuration) := BitVec c.width.bits

/-- The fifteen names of the standard-preset registry, a closed set (R105, R108). -/
inductive PresetName where
  | crc8
  | crc8Cdma2000
  | crc8Wcdma
  | crc16
  | crc16CcittFalse
  | crc16Xmodem
  | crc16Ibm
  | crc16Modbus
  | crc32
  | crc32Bzip2
  | crc32Mpeg2
  | crc32Posix
  | crc32c
  | crc64Xz
  | crc64Ecma182
deriving DecidableEq, Repr

/-- The parameter `PRESETS`: a constant map from the names to configurations (R105, R209, D18 OPEN). -/
abbrev Presets := PresetName → Configuration

end Sys2Proof
end

