-- ==== Sys2Proof/Syntax.lean ====
section
/-! DEFINITION. The commands as syntax (one constructor per row of spec/opcode_table.json), the packed configuration
object of `NEW`, and the three causes for which a command word can be refused. -/

namespace Sys2Proof

/-- `CFGOBJ`, the configuration object as the payload of `NEW` carries it (R72): the numeric fields are 64-bit
carriers, so an over-wide value can be WRITTEN here, and only here (R78 d, R183). -/
structure CfgObj where
  width : Width
  reflectInput : Bool
  reflectOutput : Bool
  polynomial : Word
  initialValue : Word
  finalXorValue : Word
deriving DecidableEq, Repr

/-- The five commands (R76). -/
inductive Instr where
  /-- `NEW cfg`: construct the engine from a configuration (R101). -/
  | new (cfg : CfgObj)
  /-- `RESET`: restart the running register (R148). -/
  | reset
  /-- `UPDATE b`: feed one byte (R145). -/
  | update (data : Byte)
  /-- `CHECKSUM`: return the finalized value (R161). -/
  | checksum
  /-- `MATCH e`: compare the checksum with an expected value (R163). -/
  | matchExpected (expected : Word)
deriving DecidableEq, Repr

/-- The causes carried in `RW.cause` (R181). -/
inductive Cause where
  /-- Code 1: the opcode is 0x0 or 0x6..0xF (R182). -/
  | illegalOpcode
  /-- Code 2: a reserved payload bit is 1, or a numeric operand has a bit at or above position `w` (R183). -/
  | illegalOperand
  /-- Code 3: any command but `NEW` while `CONFIGURED = 0` (R184). -/
  | notConfigured
deriving DecidableEq, Repr

end Sys2Proof
end

