-- ==== Sys2Proof/Machine/Operands.lean ====
section
/-! DEFINITION. Operand assembly from the command word's fields, and the byte slices of a register (R7, R73, R80). -/

namespace Sys2Proof

/-- The 2-bit code `width_sel` of a width (R73). -/
def Width.sel : Width → BitVec 2
  | .w8 => 0b00#2
  | .w16 => 0b01#2
  | .w32 => 0b10#2
  | .w64 => 0b11#2

/-- The width a code names, `width = 8 << width_sel`; all four codes are legal (R73). -/
def Width.ofSel (sel : BitVec 2) : Width :=
  if sel = 0b00#2 then .w8 else if sel = 0b01#2 then .w16 else if sel = 0b10#2 then .w32 else .w64

namespace Machine

/-- A 64-bit carrier is legal for a `w`-bit operand only if its bits `[63:w]` are zero (R80). -/
def fits (w : Nat) (field : Word) : Bool := field >>> w == 0#64

/-- The `w`-bit operand `field[w-1:0]` that a carrier stands for (R80). -/
def operand (w : Nat) (field : Word) : BitVec w := field.setWidth w

/-- `zext_64`: a `w`-bit value zero-extended into its 64-bit carrier (R7, R75). -/
def zext64 {w : Nat} (v : BitVec w) : Word := v.setWidth 64

/-- `low_byte(v) = v[7:0]` (R7). -/
def lowByte {w : Nat} (v : BitVec w) : Byte := v.extractLsb' 0 8

/-- `top_byte(v) = v[w-1:w-8]` (R7); for `w = 8` this is the whole value. -/
def topByte {w : Nat} (v : BitVec w) : Byte := v.extractLsb' (w - 8) 8

/-- The width-dependent check of `NEW`: every numeric carrier fits the width the same word selects (R78 d). -/
def cfgFits (c : CfgObj) : Bool :=
  fits c.width.bits c.polynomial && fits c.width.bits c.initialValue && fits c.width.bits c.finalXorValue

/-- The configuration a configuration object stands for: the fields `[w-1:0]` that `NEW` latches (R80, R101). -/
def cfgLatch (c : CfgObj) : Configuration where
  width := c.width
  polynomial := operand c.width.bits c.polynomial
  initialValue := operand c.width.bits c.initialValue
  finalXorValue := operand c.width.bits c.finalXorValue
  reflectInput := c.reflectInput
  reflectOutput := c.reflectOutput

/-- The configuration object that carries a configuration: its numeric fields zero-extended (R72). -/
def cfgPack (c : Configuration) : CfgObj where
  width := c.width
  reflectInput := c.reflectInput
  reflectOutput := c.reflectOutput
  polynomial := zext64 c.polynomial
  initialValue := zext64 c.initialValue
  finalXorValue := zext64 c.finalXorValue

end Machine

end Sys2Proof
end

