-- ==== Sys2Proof/WellFormed.lean ====
section
/-! DEFINITION. Well-formed commands: the checks that depend on the command word alone and survive decoding.
The reserved payload bits (R78 a, b, c) have no place in `Instr`, so decoding settles them; `MATCH`'s width check
(R78 e) depends on `CFG.width` and is part of its meaning. What is left is `NEW`'s own width check (R78 d). -/

namespace Sys2Proof

/-- The numeric fields of `NEW` fit the width the same word selects (R78 d); the other commands always pass. -/
def Instr.wellFormed : Instr → Bool
  | .new cfg => Machine.cfgFits cfg
  | .reset => true
  | .update _ => true
  | .checksum => true
  | .matchExpected _ => true

end Sys2Proof
end

