-- ==== Sys2Proof/Decode.lean ====
section
/-! DEFINITION. Decoding a command word, total on all 2^200 words and rejecting by the spec's cause (R71 to R81 steps
1 and 2), and after it the encoder written from the same tables. -/

namespace Sys2Proof

/-- `op = CW[199:196]` (R71). -/
def opcodeOf (cw : CommandWord) : BitVec 4 := cw.extractLsb' 196 4

/-- `P = CW[195:0]` (R71). -/
def payloadOf (cw : CommandWord) : Payload := cw.extractLsb' 0 196

/-- The fields of `CFGOBJ` at their bit positions in `P` (R72). -/
def unpackCfg (p : Payload) : CfgObj where
  width := Width.ofSel (p.extractLsb' 194 2)
  reflectInput := p.getLsbD 193
  reflectOutput := p.getLsbD 192
  polynomial := p.extractLsb' 128 64
  initialValue := p.extractLsb' 64 64
  finalXorValue := p.extractLsb' 0 64

/-- A command whose reserved payload bits are `reserved`: refused unless they are all zero (R78 a, b, c). -/
def ifReservedZero {n : Nat} (reserved : BitVec n) (i : Instr) : Except Cause Instr :=
  if reserved = 0#n then .ok i else .error .illegalOperand

/-- The opcode map (R76) with steps 1 and 2 of the check order (R81): the opcode first, then the checks that need
no width. Opcodes 0x0 and 0x6..0xF encode no command (R77). -/
def decode (cw : CommandWord) : Except Cause Instr :=
  let p := payloadOf cw
  if opcodeOf cw = 0x1#4 then .ok (.new (unpackCfg p))
  else if opcodeOf cw = 0x2#4 then ifReservedZero p .reset
  else if opcodeOf cw = 0x3#4 then ifReservedZero (p.extractLsb' 8 188) (.update (p.extractLsb' 0 8))
  else if opcodeOf cw = 0x4#4 then ifReservedZero p .checksum
  else if opcodeOf cw = 0x5#4 then ifReservedZero (p.extractLsb' 64 132) (.matchExpected (p.extractLsb' 0 64))
  else .error .illegalOpcode

/-- The packed form of a configuration object, most significant field first (R72). -/
def packCfg (c : CfgObj) : Payload :=
  c.width.sel ++ BitVec.ofBool c.reflectInput ++ BitVec.ofBool c.reflectOutput ++ c.polynomial ++ c.initialValue
    ++ c.finalXorValue

/-- The opcode digit of a command (R76). -/
def Instr.opcode : Instr → BitVec 4
  | .new _ => 0x1#4
  | .reset => 0x2#4
  | .update _ => 0x3#4
  | .checksum => 0x4#4
  | .matchExpected _ => 0x5#4

/-- The payload of a command, reserved bits zero (R72, R74). -/
def Instr.payload : Instr → Payload
  | .new c => packCfg c
  | .reset => 0#196
  | .update b => 0#188 ++ b
  | .checksum => 0#196
  | .matchExpected e => 0#132 ++ e

/-- The command word of a command: opcode, then payload (R71). -/
def encode (i : Instr) : CommandWord := i.opcode ++ i.payload

/-- The command of a table row's bits: the row is one 200-bit word, bit 0 its least significant bit. -/
def decodeTableWord (nbits w : Nat) : Option Instr :=
  match decode (BitVec.ofNat 200 (w % 2 ^ nbits)) with
  | .ok i => some i
  | .error _ => none

end Sys2Proof
end

