-- ==== Sys2Proof/Machine/Reflect.lean ====
section
/-! DEFINITION. The bit-reflection unit (R120, R121). -/

namespace Sys2Proof.Machine

/-- `rev_n(v)`: bit `i` of the result is bit `n-1-i` of `v`; for `n = 8` the byte reflection `rev_8` (R120, R121). -/
def rev {n : Nat} (v : BitVec n) : BitVec n := v.reverse

end Sys2Proof.Machine
end

