-- ==== Sys2Proof/Machine/TableGen.lean ====
section
/-! DEFINITION. One table entry and the whole lookup table (R123, R124, R126). -/

namespace Sys2Proof.Machine

/-- One polynomial-division step, MSB-first: the top bit is tested before the shift (R123). -/
def divStepMsb {w : Nat} (poly r : BitVec w) : BitVec w :=
  if r.getLsbD (w - 1) then (r <<< 1) ^^^ poly else r <<< 1

/-- One polynomial-division step, LSB-first: bit 0 is tested before the shift (R124). -/
def divStepLsb {w : Nat} (polyRev r : BitVec w) : BitVec w :=
  if r.getLsbD 0 then (r >>> 1) ^^^ polyRev else r >>> 1

/-- The eight division steps of the non-reflected branch (R5, R123). -/
def divMsb {w : Nat} (poly r : BitVec w) : BitVec w := (divStepMsb poly)^[8] r

/-- The eight division steps of the reflected branch, with the bit-reversed polynomial as the constant (R124). -/
def divLsb {w : Nat} (poly r : BitVec w) : BitVec w := (divStepLsb (rev poly))^[8] r

/-- A byte in the highest byte position of a `w`-bit value, `zext_w(b) << (w - 8)` (R123, R144). -/
def byteAtTop (w : Nat) (b : Byte) : BitVec w := b.setWidth w <<< (w - 8)

/-- A byte in the low byte of a `w`-bit value, `zext_w(b)`, not bit-reversed (R124, R144). -/
def byteAtLow (w : Nat) (b : Byte) : BitVec w := b.setWidth w

/-- `table_entry(cfg, i)` (R123 for `reflectInput = 0`, R124 for `reflectInput = 1`); spec/90_conflicts.md C1 says
why the reflected branch has an unreversed seed and the reversed polynomial. The final mask is the spec's own. -/
def tableEntry (cfg : Configuration) (i : Byte) : cfg.Reg :=
  (if cfg.reflectInput then divLsb cfg.polynomial (byteAtLow _ i) else divMsb cfg.polynomial (byteAtTop _ i))
    &&& BitVec.allOnes _

/-- `TABLEGEN(cfg)`: all 256 entries (R126). -/
def tablegen (cfg : Configuration) : Table cfg.width.bits := Vector.ofFn fun i => tableEntry cfg (BitVec.ofFin i)

/-- `TblRead(i)`: every 8-bit index is valid (R51). -/
def tblRead {w : Nat} (t : Table w) (i : Byte) : BitVec w := t[i.toNat]'i.isLt

/-- `TblWrite(i, v)` (R52). `NEW` performs all 256 in one atomic command, so its meaning installs `tablegen`. -/
def tblWrite {w : Nat} (t : Table w) (i : Byte) (v : BitVec w) : Table w := t.set i.toNat v i.isLt

end Sys2Proof.Machine
end

