-- ==== Sys2Proof/Machine/Datapath.lean ====
section
/-! DEFINITION. The byte-wise update, the finalizer, and the checksum of a whole byte sequence. -/

namespace Sys2Proof.Machine

/-- `step(cfg, T, reg, b)` for `reflectInput = 0` (R140). -/
def stepMsb {w : Nat} (t : Table w) (reg : BitVec w) (b : Byte) : BitVec w :=
  (reg <<< 8) ^^^ tblRead t (topByte reg ^^^ b)

/-- `step(cfg, T, reg, b)` for `reflectInput = 1`; the byte is not bit-reversed (R141; spec/90_conflicts.md C2). -/
def stepLsb {w : Nat} (t : Table w) (reg : BitVec w) (b : Byte) : BitVec w :=
  (reg >>> 8) ^^^ tblRead t (lowByte reg ^^^ b)

/-- `step(cfg, T, reg, b)`: one input byte (R140, R141). -/
def crcStep (cfg : Configuration) (t : Table cfg.width.bits) (reg : cfg.Reg) (b : Byte) : cfg.Reg :=
  if cfg.reflectInput then stepLsb t reg b else stepMsb t reg b

/-- `fold(step(cfg, T, ., .), reg, bytes)`: the bytes in index order (R146). -/
def crcFold (cfg : Configuration) (t : Table cfg.width.bits) (reg : cfg.Reg) (bytes : List Byte) : cfg.Reg :=
  bytes.foldl (crcStep cfg t) reg

/-- `finalize(cfg, reg)`: the whole register reversed when the flags differ, the final XOR, the mask (R160). -/
def finalize (cfg : Configuration) (reg : cfg.Reg) : cfg.Reg :=
  ((if cfg.reflectOutput != cfg.reflectInput then rev reg else reg) ^^^ cfg.finalXorValue) &&& BitVec.allOnes _

/-- `crc(cfg, bytes)`: the pure function that `COMPUTE bytes` responds with (R164). -/
def crcOf (cfg : Configuration) (bytes : List Byte) : cfg.Reg :=
  finalize cfg (crcFold cfg (tablegen cfg) cfg.initialValue bytes)

end Sys2Proof.Machine
end

