-- ==== Sys2Proof/Machine/State.lean ====
section
/-! DEFINITION. The state of one engine instance and of its command port, and the state after hardware reset. -/

namespace Sys2Proof.Machine

/-- The four pieces of state of one engine instance (R20). The registers are `w`-bit values for `w = cfg.width`
(R22 to R29). While `configured` is false, `cfg`, `table` and `crc` hold values no command can read (R30). -/
structure Engine where
  /-- `CONFIGURED` (R30). -/
  configured : Bool
  /-- `CFG`, the configuration latch (R21 to R27). -/
  cfg : Configuration
  /-- `T[0..255]`, the lookup table (R28). -/
  table : Table cfg.width.bits
  /-- `CRC`, the running register (R29). -/
  crc : BitVec cfg.width.bits
deriving DecidableEq, Repr

/-- What the outside world can present to the instance's port (R210): a command word, or the platform's hardware
reset, which is not a command and returns no response (R201). -/
inductive HostInput where
  | command (cw : CommandWord)
  | hardwareReset
deriving DecidableEq, Repr

/-- What a response word says (R75): executed, with a result value, or refused, with a cause. -/
inductive Response where
  | ok (value : Word)
  | err (cause : Cause)
deriving DecidableEq, Repr

/-- The instance and the two ends of its port: the inputs that have reached the port and wait, in arrival order
(R59, R204, R211), and the responses returned so far, NEWEST FIRST (one per command, R70). The two lists are the
model's own view of the host, not registers of the block (R34). -/
structure State where
  engine : Engine
  inputs : List HostInput
  responses : List Response
deriving DecidableEq, Repr

/-- The reasons the machine stops with a fault. There is none: every command word has exactly one outcome, a
response, and nothing in the block is stuck (R81, R149, R180; spec/93_implementation_defined.md), so no one raises
a fault and the type has no constructor. -/
inductive Fault where
deriving DecidableEq, Repr

/-- The reasons the MODEL has no meaning for a command. (A command the ENGINE refuses is no refusal of the model: it
takes a next state with an error response, R186.) -/
inductive Refusal where
  /-- Raised by an arm of `exec` for a command without a meaning; safe. No arm raises it. -/
  | notModelled (mnemonic : String)
deriving DecidableEq, Repr

/-- The engine after hardware reset: `CONFIGURED = 0` (R30, R36, R201). The spec gives `CFG`, `T` and `CRC` no value
then; the zeros here are DESIGN CHOICE (log entry 1), unobservable by R184. -/
def Engine.reset : Engine where
  configured := false
  cfg := { width := .w8, polynomial := 0#8, initialValue := 0#8, finalXorValue := 0#8,
           reflectInput := false, reflectOutput := false }
  table := Vector.replicate 256 0#8
  crc := 0#8

/-- The machine right after hardware reset: the engine unconfigured, no command at the port, no response given. -/
def State.reset : State where
  engine := Engine.reset
  inputs := []
  responses := []

end Sys2Proof.Machine
end

