-- ==== Sys2Proof/Machine/Ops.lean ====
section
/-! DEFINITION. The operations the meanings share: responding, refusing a command (the block's only exception),
writing the registers, hardware reset, and taking the next input from the port. -/

namespace Sys2Proof.Machine

/-- `respond(v)`: the command ends successfully with result `v`; a command with no result responds 0 (R8, R75). -/
def respond (v : Word) (s : State) : State := { s with responses := .ok v :: s.responses }

/-- `raise X`, the delivery of a refusal (R186), the block's analogue of taking an exception: an error response; no
state of the instance is written, nothing is saved, no mode changes and control goes nowhere. There is no return
from it: the next command executes as if the refused one had never been sent (R187). -/
def raise (c : Cause) (s : State) : State := { s with responses := .err c :: s.responses }

/-- `CRC <- v` (R29). -/
def writeCrc (s : State) (v : s.engine.cfg.Reg) : State := { s with engine := { s.engine with crc := v } }

/-- The writes of `NEW`, one atomic command (R56, R101): the six fields, the 256 table entries, the register loaded
with `initialValue` unreflected (R23), and `CONFIGURED <- 1`. -/
def construct (cfg : Configuration) (s : State) : State :=
  { s with engine := { configured := true, cfg := cfg, table := tablegen cfg, crc := cfg.initialValue } }

/-- Hardware reset: the engine is as after power-on; no response is returned (R200, R201, R210). -/
def hardwareReset (s : State) : State := { s with engine := Engine.reset }

/-- The next input at the port and the state without it (R59: one at a time, in arrival order). -/
def takeInput (s : State) : Option (HostInput × State) :=
  match s.inputs with
  | [] => none
  | x :: rest => some (x, { s with inputs := rest })

/-- A command word placed at the head of the port, the rest of the port unchanged. -/
def presentWord (cw : CommandWord) (s : State) : State := { s with inputs := .command cw :: s.inputs }

/-- The cause codes (R181). -/
def causeCode : Cause → BitVec 2
  | .illegalOpcode => 1#2
  | .illegalOperand => 2#2
  | .notConfigured => 3#2

/-- The response word: `err`, `cause`, `value` (R75). -/
def responseWord : Response → ResponseWord
  | .ok v => 0#1 ++ 0#2 ++ v
  | .err c => 1#1 ++ causeCode c ++ 0#64

end Sys2Proof.Machine
end

