-- ==== Sys2Proof/Machine/Flags.lean ====
section
/-! DEFINITION. The block's one flag, `CONFIGURED`, and the check that reads it (R30, R32). -/

namespace Sys2Proof.Machine

/-- Step 3 of the check order: a command other than `NEW` is refused with `NOT_CONFIGURED` while `CONFIGURED = 0`,
and otherwise goes on to `done` (R81, R184). -/
def whenConfigured (s done : State) : State := if s.engine.configured then done else raise .notConfigured s

end Sys2Proof.Machine
end

