-- ==== Sys2Proof/Machine/Construct.lean ====
section
/-! DEFINITION. The meaning of `NEW`. -/

namespace Sys2Proof.Machine

/-- `NEW cfg` (R101): refused when a numeric field does not fit the word's own width (R78 d, R81 step 4), otherwise
construction, whether `CONFIGURED` is 0 or 1 (R102). -/
def execNew (cfg : CfgObj) (s : State) : Host.Outcome State Fault Refusal :=
  .next (if cfgFits cfg then respond 0 (construct (cfgLatch cfg) s) else raise .illegalOperand s)

end Sys2Proof.Machine
end

