-- ==== Sys2Proof/Machine/Register.lean ====
section
/-! DEFINITION. The meanings of the commands that write the running register: `RESET` and `UPDATE`. -/

namespace Sys2Proof.Machine

/-- `RESET` (R148): `CRC <- CFG.initialValue`, nothing else. -/
def execReset (s : State) : Host.Outcome State Fault Refusal :=
  .next (whenConfigured s (respond 0 (writeCrc s s.engine.cfg.initialValue)))

/-- `UPDATE b` (R145): `CRC <- step(CFG, T, CRC, b)`. -/
def execUpdate (data : Byte) (s : State) : Host.Outcome State Fault Refusal :=
  .next (whenConfigured s (respond 0 (writeCrc s (crcStep s.engine.cfg s.engine.table s.engine.crc data))))

end Sys2Proof.Machine
end

