-- ==== Sys2Proof/Machine/Result.lean ====
section
/-! DEFINITION. The meanings of the commands that return a result and write no register: `CHECKSUM` and `MATCH`. -/

namespace Sys2Proof.Machine

/-- `CHECKSUM` (R161): respond `zext_64(finalize(CFG, CRC))`. -/
def execChecksum (s : State) : Host.Outcome State Fault Refusal :=
  .next (whenConfigured s (respond (zext64 (finalize s.engine.cfg s.engine.crc)) s))

/-- The bit `MATCH` responds with, as a result value (R163). -/
def matchBit {w : Nat} (checksum expected : BitVec w) : Word := if checksum = expected then 1 else 0

/-- `MATCH e` (R163): refused when `e` does not fit `CFG.width` (R78 e, checked after `NOT_CONFIGURED`, R81),
otherwise 1 or 0 as the checksum equals `e[w-1:0]`. -/
def execMatch (expected : Word) (s : State) : Host.Outcome State Fault Refusal :=
  .next (whenConfigured s
    (if fits s.engine.cfg.width.bits expected then
      respond (matchBit (finalize s.engine.cfg s.engine.crc) (operand _ expected)) s
    else raise .illegalOperand s))

end Sys2Proof.Machine
end

