-- ==== Sys2Proof/Machine/Dispatch.lean ====
section
/-! DEFINITION. `exec`: one arm per command. -/

namespace Sys2Proof.Machine

def exec (i : Instr) (s : State) : Host.Outcome State Fault Refusal :=
  match i with
  | .new cfg => Sys2Proof.Machine.execNew cfg s
  | .reset => Sys2Proof.Machine.execReset s
  | .update data => Sys2Proof.Machine.execUpdate data s
  | .checksum => Sys2Proof.Machine.execChecksum s
  | .matchExpected expected => Sys2Proof.Machine.execMatch expected s

end Sys2Proof.Machine
end

