-- ==== Sys2Proof/Machine/Step.lean ====
section
/-! DEFINITION. One step: the next input of the port, taken and carried out to completion (R10, R59, R70). -/

namespace Sys2Proof.Machine

/-- One step. With nothing at the port the engine holds its state (R201: nothing executes until the host sends a
command; log entry 3). A command word is decoded and executed, or refused with the decoder's cause (R81, R186). -/
def step (s : State) : Host.Outcome State Fault Refusal :=
  match takeInput s with
  | none => .next s
  | some (.hardwareReset, s') => .next (hardwareReset s')
  | some (.command cw, s') =>
    match decode cw with
    | .ok i => exec i s'
    | .error c => .next (raise c s')

/-- `s` with the command word `w` (its bits from `nbits` up zero) presented at the head of the port. -/
def State.withFetchWord (s : State) (nbits w : Nat) : State := presentWord (BitVec.ofNat 200 (w % 2 ^ nbits)) s

end Sys2Proof.Machine
end

