-- ==== Sys2Proof/Machine/Macros.lean ====
section
/-! DEFINITION. The host's macro-commands (R83), each a list of commands, and the default preset registry (R106).
The engine sees only the commands; `PRESETS` is an argument, for which `defaultPresets` may be used. -/

namespace Sys2Proof.Machine

/-- The default contents of `PRESETS` (R106; general knowledge, log entry 5). -/
def defaultPresets : Presets
  | .crc8 => ⟨.w8, 0x07#8, 0x00#8, 0x00#8, false, false⟩
  | .crc8Cdma2000 => ⟨.w8, 0x9B#8, 0xFF#8, 0x00#8, false, false⟩
  | .crc8Wcdma => ⟨.w8, 0x9B#8, 0x00#8, 0x00#8, true, true⟩
  | .crc16 => ⟨.w16, 0x8005#16, 0x0000#16, 0x0000#16, true, true⟩
  | .crc16CcittFalse => ⟨.w16, 0x1021#16, 0xFFFF#16, 0x0000#16, false, false⟩
  | .crc16Xmodem => ⟨.w16, 0x1021#16, 0x0000#16, 0x0000#16, false, false⟩
  | .crc16Ibm => ⟨.w16, 0x8005#16, 0x0000#16, 0x0000#16, true, true⟩
  | .crc16Modbus => ⟨.w16, 0x8005#16, 0xFFFF#16, 0x0000#16, true, true⟩
  | .crc32 => ⟨.w32, 0x04C11DB7#32, 0xFFFFFFFF#32, 0xFFFFFFFF#32, true, true⟩
  | .crc32Bzip2 => ⟨.w32, 0x04C11DB7#32, 0xFFFFFFFF#32, 0xFFFFFFFF#32, false, false⟩
  | .crc32Mpeg2 => ⟨.w32, 0x04C11DB7#32, 0xFFFFFFFF#32, 0x00000000#32, false, false⟩
  | .crc32Posix => ⟨.w32, 0x04C11DB7#32, 0x00000000#32, 0xFFFFFFFF#32, false, false⟩
  | .crc32c => ⟨.w32, 0x1EDC6F41#32, 0xFFFFFFFF#32, 0xFFFFFFFF#32, true, true⟩
  | .crc64Xz => ⟨.w64, 0x42F0E1EBA9EA3693#64, 0xFFFFFFFFFFFFFFFF#64, 0xFFFFFFFFFFFFFFFF#64, true, true⟩
  | .crc64Ecma182 => ⟨.w64, 0x42F0E1EBA9EA3693#64, 0x0000000000000000#64, 0x0000000000000000#64, false, false⟩

/-- The macro-commands (R83). -/
inductive Macro where
  /-- `UPDATE.SEQ bytes` (R146). -/
  | updateSeq (bytes : List Byte)
  /-- `COMPUTE bytes` (R164). -/
  | compute (bytes : List Byte)
  /-- `VERIFY bytes, expected` (R165). -/
  | verify (bytes : List Byte) (expected : Word)
  /-- `NEW.PRESET name` (R108). -/
  | newPreset (name : PresetName)
  /-- The static convenience functions: a one-shot engine of the named preset (R83, R173). Which names `crc16` and
  `crc64` stand for is the host's parameter, hence the argument. -/
  | oneShot (name : PresetName) (bytes : List Byte)
deriving DecidableEq, Repr

/-- The command sequence a macro stands for (R83, R108, R173). -/
def Macro.expand (presets : Presets) : Macro → List Instr
  | .updateSeq bytes => bytes.map .update
  | .compute bytes => .reset :: (bytes.map .update ++ [.checksum])
  | .verify bytes e => .reset :: (bytes.map .update ++ [.matchExpected e])
  | .newPreset name => [.new (cfgPack (presets name))]
  | .oneShot name bytes => .new (cfgPack (presets name)) :: .reset :: (bytes.map .update ++ [.checksum])

/-- Commands as the host presents them: one command word each, in order (R70). -/
def asInputs (is : List Instr) : List HostInput := is.map fun i => .command (encode i)

end Sys2Proof.Machine
end

