-- ==== Sys2Proof/Machine/Reference.lean ====
section
/-! DEFINITION. The spec's other descriptions of the same functions: the bit-serial step, the once-per-engine path
selection, and the widely used parametrised CRC model. The machine does not call them; statements compare them with
what it does call. -/

namespace Sys2Proof.Machine

/-- The serial form of one byte: the byte mixed in, then eight single-bit division steps (R144). -/
def serialStep (cfg : Configuration) (reg : cfg.Reg) (b : Byte) : cfg.Reg :=
  if cfg.reflectInput then divLsb cfg.polynomial (reg ^^^ byteAtLow _ b)
  else divMsb cfg.polynomial (reg ^^^ byteAtTop _ b)

/-- `PSEL`, the derived path selection: the five bullets of the dispatch table (R33, R143). -/
inductive Psel where
  | width8
  | width16Reflected
  | width16Plain
  | wideReflected
  | widePlain
deriving DecidableEq, Repr

/-- The branch taken once per engine, on `width` and `reflectInput` (R33, R143). -/
def pathSelection (width : Width) (reflectInput : Bool) : Psel :=
  match width, reflectInput with
  | .w8, _ => .width8
  | .w16, true => .width16Reflected
  | .w16, false => .width16Plain
  | .w32, true => .wideReflected
  | .w64, true => .wideReflected
  | .w32, false => .widePlain
  | .w64, false => .widePlain

/-- The update formula each path selects (R142, R143): at width 8 the shifted term vanishes, at width 16 the top
byte is `reg[15:8]`. -/
def pathStep {w : Nat} (p : Psel) (t : Table w) (reg : BitVec w) (b : Byte) : BitVec w :=
  match p with
  | .width8 => tblRead t (lowByte reg ^^^ b)
  | .width16Reflected => (reg >>> 8) ^^^ tblRead t (lowByte reg ^^^ b)
  | .width16Plain => (reg <<< 8) ^^^ tblRead t (reg.extractLsb' 8 8 ^^^ b)
  | .wideReflected => (reg >>> 8) ^^^ tblRead t (lowByte reg ^^^ b)
  | .widePlain => (reg <<< 8) ^^^ tblRead t (topByte reg ^^^ b)

/-- One byte of the parametrised model: MSB-first whatever the flags, the byte reversed when `refin` (R171). -/
def parametrisedStep {w : Nat} (poly : BitVec w) (refin : Bool) (reg : BitVec w) (b : Byte) : BitVec w :=
  divMsb poly (reg ^^^ byteAtTop w (if refin then rev b else b))

/-- The widely used parametrised CRC model: `init` is the contents of the unreflected register, `refout` reverses
the final register, `xorout` is applied last (R171; general knowledge, spec/93_implementation_defined.md G4). -/
def parametrisedCrc {w : Nat} (poly init xorout : BitVec w) (refin refout : Bool) (bytes : List Byte) : BitVec w :=
  let reg := bytes.foldl (parametrisedStep poly refin) init
  (if refout then rev reg else reg) ^^^ xorout

end Sys2Proof.Machine
end

