-- ==== Sys2Proof/Machine/System.lean ====
section
/-! DEFINITION. `N_INSTANCES` engines side by side (R35, R191): each has its own state and its own port. -/

namespace Sys2Proof.Machine

/-- `n` instances, `n` the open parameter `N_INSTANCES` (D18). -/
structure System (n : Nat) where
  engines : Vector State n
deriving DecidableEq, Repr

/-- Instance `k` takes one step; which instance does is the outside world's choice, since commands to different
instances are unordered (R60). -/
def System.stepAt {n : Nat} (k : Fin n) (sys : System n) : Host.Outcome (System n) Fault Refusal :=
  match step sys.engines[k] with
  | .next s => .next { engines := sys.engines.set k s }
  | .fault r => .fault r
  | .refused r => .refused r

end Sys2Proof.Machine
end

