-- ==== Sys2Proof/Machine/Written.lean ====
section
/-! DEFINITION. The written forms: hexadecimal digits of command and response words (R84, R85) and the assembler
line of a command (R82). -/

namespace Sys2Proof.Machine

/-- The `n` hexadecimal digits of a value, most significant first. -/
def hexDigits (n : Nat) (v : Nat) : List (BitVec 4) := ((List.range n).map fun k => BitVec.ofNat 4 (v >>> (4 * k))).reverse

/-- The 50 digits of a command word: `op`, then 49 digits of payload (R84). -/
def commandDigits (cw : CommandWord) : List (BitVec 4) := hexDigits 50 cw.toNat

/-- The digit `f = width_sel ++ reflectInput ++ reflectOutput` of a `NEW` word (R84, R85). -/
def cfgDigit (c : CfgObj) : BitVec 4 := c.width.sel ++ BitVec.ofBool c.reflectInput ++ BitVec.ofBool c.reflectOutput

/-- The parts `err.cause.value` of a response word (R84). -/
def responseParts (rw : ResponseWord) : BitVec 1 × BitVec 2 × Word :=
  (rw.extractLsb' 66 1, rw.extractLsb' 64 2, rw.extractLsb' 0 64)

/-- `0x` and the upper-case hexadecimal digits of a value, zero-padded to `n` digits; a value with more digits is
written with all of them. -/
def hexText (n : Nat) (v : Nat) : String :=
  "0x" ++ String.ofList ((hexDigits (max n (Nat.toDigits 16 v).length) v).map fun d =>
    ("0123456789ABCDEF".toList).getD d.toNat '0')

/-- One assembler line (R82). How many digits an operand has is DESIGN CHOICE (log entry 13): a numeric field of `NEW`
at least `width / 4`, the byte of `UPDATE` two, the operand of `MATCH` no leading zeros. A numeric field too wide for
the width is written in full, so the line of a `NEW` that will be refused is never that of a legal one; R82 does not
say how it is written, and P4 of spec/95_test_vectors.md writes `poly=0x18005` at `w=16`. -/
def asmLine : Instr → String
  | .new c => "NEW w=" ++ toString c.width.bits ++ ", poly=" ++ hexText (c.width.bits / 4) c.polynomial.toNat
      ++ ", init=" ++ hexText (c.width.bits / 4) c.initialValue.toNat
      ++ ", xorout=" ++ hexText (c.width.bits / 4) c.finalXorValue.toNat
      ++ ", refin=" ++ (if c.reflectInput then "1" else "0") ++ ", refout=" ++ (if c.reflectOutput then "1" else "0")
  | .reset => "RESET"
  | .update b => "UPDATE " ++ hexText 2 b.toNat
  | .checksum => "CHECKSUM"
  | .matchExpected e => "MATCH " ++ hexText 1 e.toNat

end Sys2Proof.Machine
end

