-- ==== Sys2Proof/Safety.lean ====
section
/-! DEFINITION. What claims call a coherent state and a clean run. -/

namespace Sys2Proof.Machine

/-- The coherence invariant of the table: `T = TABLEGEN(CFG)` whenever `CONFIGURED = 1` (R28, R63). -/
def State.Coherent (s : State) : Prop := s.engine.configured = true → s.engine.table = tablegen s.engine.cfg

/-- `k` steps of the machine, stopping at the first fault or refusal of the model. -/
def run : Nat → State → Host.Outcome State Fault Refusal
  | 0, s => .next s
  | k + 1, s =>
    match step s with
    | .next t => run k t
    | .fault r => .fault r
    | .refused r => .refused r

/-- A response that is no refusal; "no command was refused" (R187) says this of every response of a run. -/
def Response.isOk : Response → Bool
  | .ok _ => true
  | .err _ => false

end Sys2Proof.Machine
end

