-- ==== Sys2Proof/Certificates/Slice0/Obligations.lean ====
section
/-! DEFINITION. The statements for the provers, from the numbered rules of spec/. All of them see the host through the
port lists of `State`, `inputs` in arrival order and `responses` newest first, which are the model's own (log entry
4). -/

open Sys2Proof Sys2Proof.Machine

/-! ### Encoding and decoding -/

/-- R71, R72, R74, R76: encoding loses nothing: every command, with every operand value the encoding admits (the
over-wide ones too), is read back from its own word, also through the table's numbering of the bits. -/
def Obligations.DecodeOfEncodeGivesTheCommandBack : Prop :=
  ∀ i : Instr, decode (encode i) = .ok i ∧ decodeTableWord 200 (encode i).toNat = some i

/-- R78, R80: a word that decodes is the word of the command it decodes to, so no two words decode to one command and
no reserved bit is ignored. -/
def Obligations.DecodedWordIsTheCommandsWord : Prop :=
  ∀ (cw : CommandWord) (i : Instr), decode cw = .ok i → encode i = cw

/-- R84's example words, digit for digit, decode to the commands they are written for. -/
def Obligations.ExampleWordsDecode : Prop :=
  decode 0x1B0000000004C11DB700000000FFFFFFFF00000000FFFFFFFF#200
      = .ok (.new ⟨.w32, true, true, 0x04C11DB7#64, 0xFFFFFFFF#64, 0xFFFFFFFF#64⟩) ∧
  decode 0x20000000000000000000000000000000000000000000000000#200 = .ok .reset ∧
  decode 0x30000000000000000000000000000000000000000000000031#200 = .ok (.update 0x31#8) ∧
  decode 0x40000000000000000000000000000000000000000000000000#200 = .ok .checksum ∧
  decode 0x500000000000000000000000000000000000000000CBF43926#200 = .ok (.matchExpected 0xCBF43926#64)

/-- R72, R84: the 50 hexadecimal digits of a command's word: the opcode digit, the digit `f` (0 but for `NEW`, where
it is `width_sel ++ reflectInput ++ reflectOutput`), and three groups of 16 digits. -/
def Obligations.CommandWordDigits : Prop :=
  ∀ i : Instr, commandDigits (encode i) =
    match i with
    | .new c => 1#4 :: cfgDigit c :: (hexDigits 16 c.polynomial.toNat ++ hexDigits 16 c.initialValue.toNat
        ++ hexDigits 16 c.finalXorValue.toNat)
    | .reset => 2#4 :: List.replicate 49 0#4
    | .update b => 3#4 :: (List.replicate 47 0#4 ++ hexDigits 2 b.toNat)
    | .checksum => 4#4 :: List.replicate 49 0#4
    | .matchExpected e => 5#4 :: (List.replicate 33 0#4 ++ hexDigits 16 e.toNat)

/-- R75, R181: the parts of the response word. -/
def Obligations.ResponseWordParts : Prop :=
  (∀ v : Word, responseParts (responseWord (.ok v)) = (0#1, 0#2, v)) ∧
  responseParts (responseWord (.err .illegalOpcode)) = (1#1, 1#2, 0#64) ∧
  responseParts (responseWord (.err .illegalOperand)) = (1#1, 2#2, 0#64) ∧
  responseParts (responseWord (.err .notConfigured)) = (1#1, 3#2, 0#64)

/-! ### The step, and the check order -/

/-- A step runs the decoded command: what `step` adds around `exec` is that the word leaves the port (log entry 4). -/
def Obligations.StepRunsTheDecodedCommand : Prop :=
  ∀ (s : State) (cw : CommandWord) (rest : List HostInput) (i : Instr),
    s.inputs = .command cw :: rest → decode cw = .ok i → step s = exec i { s with inputs := rest }

/-- R182: every word whose opcode is not one of 0x1 to 0x5 is refused with `ILLEGAL_OPCODE`, whatever its payload and
whatever the state, and changes nothing of the instance. -/
def Obligations.ReservedOpcodesAreRefused : Prop :=
  ∀ (s : State) (cw : CommandWord) (rest : List HostInput), s.inputs = .command cw :: rest →
    (cw.extractLsb' 196 4 = 0x0#4 ∨ 0x6#4 ≤ cw.extractLsb' 196 4) →
    step s = .next { engine := s.engine, inputs := rest, responses := .err .illegalOpcode :: s.responses }

/-- R81, R185: the check order, over the word's own bits: the opcode; the payload checks that need no width;
`NOT_CONFIGURED`; the checks against `w`; then execution, which responds without error. -/
def Obligations.ChecksHappenInOrder : Prop :=
  ∀ (s : State) (cw : CommandWord) (rest : List HostInput), s.inputs = .command cw :: rest →
    let op := cw.extractLsb' 196 4
    let refusedWith (c : Cause) :=
      step s = .next { engine := s.engine, inputs := rest, responses := .err c :: s.responses }
    let reservedOpcode : Prop := op = 0x0#4 ∨ 0x6#4 ≤ op
    let reservedBitsSet : Prop := ((op = 0x2#4 ∨ op = 0x4#4) ∧ cw.extractLsb' 0 196 ≠ 0#196) ∨
      (op = 0x3#4 ∧ cw.extractLsb' 8 188 ≠ 0#188) ∨ (op = 0x5#4 ∧ cw.extractLsb' 64 132 ≠ 0#132)
    let needsConfiguration : Prop := op ≠ 0x1#4 ∧ s.engine.configured = false
    let overWide : Prop := (op = 0x1#4 ∧ ∃ k : Nat, 8 <<< (cw.extractLsb' 194 2).toNat ≤ k ∧ k < 64 ∧
        (cw.getLsbD (128 + k) = true ∨ cw.getLsbD (64 + k) = true ∨ cw.getLsbD k = true)) ∨
      (op = 0x5#4 ∧ ∃ k : Nat, s.engine.cfg.width.bits ≤ k ∧ k < 64 ∧ cw.getLsbD k = true)
    (reservedOpcode → refusedWith .illegalOpcode) ∧
    (¬ reservedOpcode → reservedBitsSet → refusedWith .illegalOperand) ∧
    (¬ reservedOpcode → ¬ reservedBitsSet → needsConfiguration → refusedWith .notConfigured) ∧
    (¬ reservedOpcode → ¬ reservedBitsSet → ¬ needsConfiguration → overWide → refusedWith .illegalOperand) ∧
    (¬ reservedOpcode → ¬ reservedBitsSet → ¬ needsConfiguration → ¬ overWide →
      ∃ i t v, decode cw = .ok i ∧ i.opcode = op ∧ exec i { s with inputs := rest } = .next t ∧
        step s = .next t ∧ t.inputs = rest ∧ t.responses = .ok v :: s.responses)

/-- R184: before the first successful `NEW`, each of the four other commands is refused with `NOT_CONFIGURED` (`MATCH`
with any operand, for its width is not known yet), nothing of the state being changed. -/
def Obligations.UnconfiguredEngineRefuses : Prop :=
  ∀ (i : Instr) (s : State), s.engine.configured = false → (∀ c, i ≠ .new c) →
    exec i s = .next { s with responses := .err .notConfigured :: s.responses }

/-- R184: once configured, `NOT_CONFIGURED` never occurs, for any word. -/
def Obligations.ConfiguredEngineNeverAnswersNotConfigured : Prop :=
  ∀ (s t : State), s.engine.configured = true → step s = .next t →
    t.responses ≠ .err .notConfigured :: s.responses

/-- Stepping is total: from every state the step gives a next state, never a fault and never a refusal of the model.
What the spec says of it is that every word executes or is refused with one cause (R81) and that nothing in the block
is stuck. That a refused word is a NEXT state of the step is the model's reading (log entry 2, DEDUCED: R187 calls a
refusal a named outcome of the step function), and that a step with an empty port is one is the model's choice (log
entry 3, DESIGN CHOICE). So is hardware reset as a step (log entry 6, DESIGN CHOICE). -/
def Obligations.EveryStepGivesANextState : Prop :=
  ∀ s : State, ∃ t, step s = .next t

/-- R70, R75: every command word that a step takes leaves the port and is answered by exactly one response. The port is
the model's own (log entry 4, DESIGN CHOICE), and so is that hardware reset falls between commands only (log entry 6,
DESIGN CHOICE, unsafe here): by I6 of spec/93 a hardware reset during a command may lose that command's response, and
this statement does not speak of that case. -/
def Obligations.OneResponsePerCommand : Prop :=
  ∀ (s t : State) (cw : CommandWord) (rest : List HostInput), s.inputs = .command cw :: rest → step s = .next t →
    t.inputs = rest ∧ ∃ r, t.responses = r :: s.responses

/-- R186: a refused command ends with `err = 1`, its cause code and value 0, and writes no state of the instance; only
the port changes. -/
def Obligations.RefusedCommandChangesNoState : Prop :=
  ∀ (s t : State) (cw : CommandWord) (rest : List HostInput) (c : Cause),
    s.inputs = .command cw :: rest → step s = .next t → t.responses = .err c :: s.responses →
    t.engine = s.engine ∧ t.inputs = rest ∧ responseParts (responseWord (.err c)) = (1#1, causeCode c, 0#64)

/-- R187: after a refused command everything that follows happens as if it had never been sent: the same state of the
instance and the same further responses, over any number of steps. -/
def Obligations.RefusedCommandLeavesNoTrace : Prop :=
  ∀ (s t : State) (cw : CommandWord) (rest : List HostInput) (c : Cause),
    s.inputs = .command cw :: rest → step s = .next t → t.responses = .err c :: s.responses →
    ∀ k, ∃ u v later, run k t = .next u ∧ run k { s with inputs := rest } = .next v ∧
      u.engine = v.engine ∧ u.inputs = v.inputs ∧
      u.responses = later ++ t.responses ∧ v.responses = later ++ s.responses

/-! ### Reset, and the life of an engine -/

/-- R201, R210 (hardware reset as an input between commands: log entry 6): hardware reset leaves the engine
unconfigured, returns no response and takes nothing else from the port. -/
def Obligations.HardwareResetUnconfigures : Prop :=
  ∀ (s : State) (rest : List HostInput), s.inputs = .hardwareReset :: rest →
    ∃ t, step s = .next t ∧ t.engine.configured = false ∧ t.inputs = rest ∧ t.responses = s.responses

/-- R30, R201: `CONFIGURED` is cleared by hardware reset and by no command. -/
def Obligations.OnlyHardwareResetUnconfigures : Prop :=
  ∀ s t : State, s.engine.configured = true → step s = .next t → t.engine.configured = false →
    ∃ rest, s.inputs = .hardwareReset :: rest

/-- R27, R37: while no `NEW` and no hardware reset is taken, a step writes nothing of the instance but `CRC`; the
configuration latch, the table and `CONFIGURED` stay. -/
def Obligations.OnlyNewAndHardwareResetWriteTheConfiguration : Prop :=
  ∀ s t : State, step s = .next t →
    (∀ cw rest cfg, s.inputs = .command cw :: rest → decode cw ≠ .ok (.new cfg)) →
    (∀ rest, s.inputs ≠ .hardwareReset :: rest) →
    ∃ v, t.engine = { s.engine with crc := v }

/-- R36, R201 (spec/93 I1): what `CFG`, `T` and `CRC` hold while unconfigured is never observed: two unconfigured
instances given the same inputs return the same responses for ever, and hold the same once configured. (So nothing
rests on the model's own choice of zeros, log entry 1.) -/
def Obligations.UnconfiguredContentsAreNeverObserved : Prop :=
  ∀ (k : Nat) (s₁ s₂ : State), s₁.engine.configured = false → s₂.engine.configured = false →
    s₁.inputs = s₂.inputs → s₁.responses = s₂.responses →
    ∃ t₁ t₂, run k s₁ = .next t₁ ∧ run k s₂ = .next t₂ ∧ t₁.inputs = t₂.inputs ∧ t₁.responses = t₂.responses ∧
      t₁.engine.configured = t₂.engine.configured ∧ (t₁.engine.configured = true → t₁.engine = t₂.engine)

/-- R28, R63: every step keeps `T = TABLEGEN(CFG)` whenever `CONFIGURED = 1`. -/
def Obligations.EveryStepKeepsTheTableCoherent : Prop :=
  ∀ s t : State, s.Coherent → step s = .next t → t.Coherent

/-- R28, R30: the state after hardware reset is unconfigured, so the coherence invariant holds there. -/
def Obligations.ResetIsCoherent : Prop :=
  State.reset.engine.configured = false ∧ State.reset.Coherent

/-! ### NEW -/

/-- R101: `NEW` with fitting fields, whatever the state: all six fields latched, all 256 entries of the table written,
`CRC` loaded with `initialValue` unreflected, `CONFIGURED` set, response 0. -/
def Obligations.NewConstructsTheEngine : Prop :=
  ∀ (c : CfgObj) (s : State),
    (∀ k, c.width.bits ≤ k → c.polynomial.getLsbD k = false ∧ c.initialValue.getLsbD k = false ∧
      c.finalXorValue.getLsbD k = false) →
    ∃ t, exec (.new c) s = .next t ∧ t.engine.configured = true ∧
      t.engine.cfg = { width := c.width,
                       polynomial := c.polynomial.setWidth _,
                       initialValue := c.initialValue.setWidth _,
                       finalXorValue := c.finalXorValue.setWidth _,
                       reflectInput := c.reflectInput,
                       reflectOutput := c.reflectOutput } ∧
      t.engine.crc = t.engine.cfg.initialValue ∧
      (∀ i : Byte, tblRead t.engine.table i = tableEntry t.engine.cfg i) ∧
      t.inputs = s.inputs ∧ t.responses = .ok 0 :: s.responses

/-- R78 (d), R101: `NEW` with a numeric field that has a bit at or above the width the same word selects is refused
with `ILLEGAL_OPERAND`, and a previously constructed engine keeps everything. -/
def Obligations.NewRefusesOverWideFields : Prop :=
  ∀ (c : CfgObj) (s : State) (k : Nat), c.width.bits ≤ k →
    (c.polynomial.getLsbD k = true ∨ c.initialValue.getLsbD k = true ∨ c.finalXorValue.getLsbD k = true) →
    exec (.new c) s = .next { s with responses := .err .illegalOperand :: s.responses }

/-- R102, R206: a `NEW` that is accepted forgets everything before it: what it leaves does not depend on the state of
the instance, constructed or not. -/
def Obligations.NewForgetsTheEarlierEngine : Prop :=
  ∀ (c : CfgObj) (s : State) (e : Engine), cfgFits c = true →
    exec (.new c) s = exec (.new c) { s with engine := e }

/-- R100, R103, R108: construction never fails for a configuration: whatever the registry holds, `NEW.PRESET` of every
name, also as the first command ever issued, latches that configuration. -/
def Obligations.EveryPresetConstructs : Prop :=
  ∀ (presets : Presets) (name : PresetName) (s : State) (rest : List HostInput),
    s.inputs = asInputs (Macro.expand presets (.newPreset name)) ++ rest →
    ∃ t, run 1 s = .next t ∧ t.engine.configured = true ∧ t.engine.cfg = presets name ∧
      t.inputs = rest ∧ t.responses = .ok 0 :: s.responses

/-! ### The reflection unit and the table -/

/-- R120, R121: bit `i` of `rev_n(v)` is bit `n-1-i` of `v`. -/
def Obligations.ReflectionReversesTheBits : Prop :=
  ∀ (n : Nat) (v : BitVec n) (i : Nat), i < n → (rev v).getLsbD i = v.getLsbD (n - 1 - i)

/-- R122 (marked derived in the spec): the laws of reflection (a) to (e). -/
def Obligations.ReflectionLaws : Prop :=
  (∀ (n : Nat) (v : BitVec n), rev (rev v) = v) ∧
  (∀ (n : Nat) (a b : BitVec n), rev (a ^^^ b) = rev a ^^^ rev b) ∧
  (∀ n : Nat, rev (0#n) = 0#n ∧ rev (BitVec.allOnes n) = BitVec.allOnes n) ∧
  (∀ (n : Nat) (v : BitVec n) (k : Nat), rev (v >>> k) = rev v <<< k ∧ rev (v <<< k) = rev v >>> k) ∧
  (∀ (n : Nat) (v : BitVec n), 8 ≤ n → lowByte (rev v) = rev (topByte v) ∧ topByte (rev v) = rev (lowByte v)) ∧
  (∀ (n : Nat) (v : BitVec n), rev v = v ↔ ∀ i, i < n → v.getLsbD i = v.getLsbD (n - 1 - i))

/-- R127 (marked derived in the spec): the laws of the table (a) to (g), for every configuration; "eight single-bit
division steps" in (f) is the serial form of R144, started at 0. -/
def Obligations.TableLaws : Prop :=
  ∀ cfg : Configuration,
    tblRead (tablegen cfg) 0x00 = 0#_ ∧
    (∀ a b : Byte, tblRead (tablegen cfg) (a ^^^ b) = tblRead (tablegen cfg) a ^^^ tblRead (tablegen cfg) b) ∧
    (cfg.reflectInput = false → tblRead (tablegen cfg) 0x01 = cfg.polynomial) ∧
    (cfg.reflectInput = true → tblRead (tablegen cfg) 0x80 = rev cfg.polynomial) ∧
    (∀ (init xorout : cfg.Reg) (refout : Bool),
      tablegen { cfg with initialValue := init, finalXorValue := xorout, reflectOutput := refout } = tablegen cfg) ∧
    (∀ i : Byte, tblRead (tablegen { cfg with reflectInput := true }) i
        = rev (tblRead (tablegen { cfg with reflectInput := false }) (rev i))) ∧
    (∀ i : Byte, tblRead (tablegen cfg) i = serialStep cfg 0#_ i) ∧
    (cfg.polynomial = 0#_ → ∀ i : Byte, tblRead (tablegen cfg) i = 0#_)

/-- R125 (marked derived in the spec): the reflected entry is the reversal of the non-reflected entry of the reversed
index. -/
def Obligations.ReflectedEntryIsTheReversedEntry : Prop :=
  ∀ (cfg : Configuration) (i : Byte), cfg.reflectInput = true →
    tableEntry cfg i = rev (tableEntry { cfg with reflectInput := false } (rev i))

/-- R52, R126: writing `table_entry(cfg, i)` for every `i`, in any order and from any earlier contents, gives
`TABLEGEN(cfg)`; the order of computation is not observable. -/
def Obligations.TableWriteOrderIsFree : Prop :=
  ∀ (cfg : Configuration) (order : List Byte) (t : Table cfg.width.bits), (∀ i : Byte, i ∈ order) →
    order.foldl (fun t i => tblWrite t i (tableEntry cfg i)) t = tablegen cfg

/-! ### UPDATE and RESET -/

/-- R140, R141, R145: `UPDATE b` on a configured engine: `CRC` becomes the register shifted by eight towards the end
the bytes leave from, exclusive-or the entry the index selects; nothing else of the instance is written. -/
def Obligations.UpdateFeedsOneByte : Prop :=
  ∀ (s : State) (b : Byte), s.engine.configured = true →
    exec (.update b) s = .next
      { engine := { s.engine with
          crc := if s.engine.cfg.reflectInput = true then
              (s.engine.crc >>> 8) ^^^ tblRead s.engine.table (s.engine.crc.extractLsb' 0 8 ^^^ b)
            else (s.engine.crc <<< 8) ^^^
              tblRead s.engine.table (s.engine.crc.extractLsb' (s.engine.cfg.width.bits - 8) 8 ^^^ b) },
        inputs := s.inputs,
        responses := .ok 0 :: s.responses }

/-- R142 (marked derived in the spec): at width 8 one step is the entry at `reg xor b`, for either reflection setting
and any table. -/
def Obligations.EightBitStepIsOneLookup : Prop :=
  ∀ (cfg : Configuration) (t : Table cfg.width.bits) (reg : cfg.Reg) (b : Byte), cfg.width = .w8 →
    crcStep cfg t reg b = tblRead t (reg.setWidth 8 ^^^ b)

/-- R33, R143: the formula the once-per-engine dispatch selects computes the step, for every width, flag and table. -/
def Obligations.PathSelectionComputesTheStep : Prop :=
  ∀ (cfg : Configuration) (t : Table cfg.width.bits) (reg : cfg.Reg) (b : Byte),
    pathStep (pathSelection cfg.width cfg.reflectInput) t reg b = crcStep cfg t reg b

/-- R144 (marked derived in the spec): parallel feedback. With the generated table one step is eight single-bit
division steps, MSB-first or LSB-first; so it is affine over exclusive-or (a), fixes the zero register on a zero byte
(b), and the reflected step is the non-reflected step conjugated by reflection (c). -/
def Obligations.ParallelFeedback : Prop :=
  ∀ (cfg : Configuration) (reg d : cfg.Reg) (b : Byte),
    crcStep cfg (tablegen cfg) reg b =
      (if cfg.reflectInput = true then
        (fun r : cfg.Reg => if r.getLsbD 0 = true then (r >>> 1) ^^^ rev cfg.polynomial else r >>> 1)^[8]
          (reg ^^^ b.setWidth _)
      else
        (fun r : cfg.Reg =>
            if r.getLsbD (cfg.width.bits - 1) = true then (r <<< 1) ^^^ cfg.polynomial else r <<< 1)^[8]
          (reg ^^^ b.setWidth _ <<< (cfg.width.bits - 8))) ∧
    crcStep cfg (tablegen cfg) (reg ^^^ d) b
        = crcStep cfg (tablegen cfg) reg b ^^^ crcStep cfg (tablegen cfg) d 0x00 ∧
    crcStep cfg (tablegen cfg) 0#_ 0x00 = 0#_ ∧
    crcStep { cfg with reflectInput := true } (tablegen { cfg with reflectInput := true }) reg b
      = rev (crcStep { cfg with reflectInput := false } (tablegen { cfg with reflectInput := false })
          (rev reg) (rev b))

/-- R22, R29, R144: polynomial division. Reading a non-reflected register as a polynomial over GF(2) (bit `i` the
coefficient of `x^i`), one step takes `R` to the remainder of `x^8 R + x^w b` modulo the generator, whose `x^w` term
is implicit. -/
def Obligations.StepIsPolynomialDivision : Prop :=
  ∀ (cfg : Configuration) (reg : cfg.Reg) (b : Byte), cfg.reflectInput = false →
    let poly {n : Nat} (v : BitVec n) : Polynomial (ZMod 2) :=
      ∑ i ∈ Finset.range n, if v.getLsbD i = true then Polynomial.X ^ i else 0
    (Polynomial.X ^ cfg.width.bits + poly cfg.polynomial) ∣
      poly (crcStep cfg (tablegen cfg) reg b)
        - (Polynomial.X ^ 8 * poly reg + Polynomial.X ^ cfg.width.bits * poly b)

/-- R104 (marked derived in the spec): with `polynomial = 0` every table entry is 0, the register is 0 after `w / 8`
or more bytes whatever they are and whatever it held, and the checksum of such an input is `finalize(CFG, 0)`. -/
def Obligations.ZeroPolynomialForgetsEverything : Prop :=
  ∀ cfg : Configuration, cfg.polynomial = 0#_ →
    (∀ i : Byte, tblRead (tablegen cfg) i = 0#_) ∧
    ∀ (reg : cfg.Reg) (bytes : List Byte), cfg.width.bits / 8 ≤ bytes.length →
      crcFold cfg (tablegen cfg) reg bytes = 0#_ ∧ crcOf cfg bytes = finalize cfg 0#_

/-- R151 (marked derived in the spec): from a zero register any number of zero bytes leaves the register zero. -/
def Obligations.ZeroBytesKeepAZeroRegister : Prop :=
  ∀ (cfg : Configuration) (n : Nat), crcFold cfg (tablegen cfg) 0#_ (List.replicate n 0x00) = 0#_

/-- R148: `RESET` on a configured engine: `CRC` becomes `initialValue`, unreflected; nothing else of the instance is
written; response 0. -/
def Obligations.ResetRestartsTheRegister : Prop :=
  ∀ s : State, s.engine.configured = true →
    exec .reset s = .next
      { engine := { s.engine with crc := s.engine.cfg.initialValue },
        inputs := s.inputs,
        responses := .ok 0 :: s.responses }

/-- R148 (its last clause, marked derived in the spec): after `RESET` a coherent engine is indistinguishable from one
freshly constructed with the same configuration: the two commands leave the same state. -/
def Obligations.ResetEqualsReconstruction : Prop :=
  ∀ s : State, s.Coherent → s.engine.configured = true →
    exec .reset s = exec (.new (cfgPack s.engine.cfg)) s

/-! ### CHECKSUM and MATCH -/

/-- R160, R161: `CHECKSUM` on a configured engine responds the finalized register, by the four cases of the reflection
flags, and writes no state. -/
def Obligations.ChecksumRespondsTheFinalizedRegister : Prop :=
  ∀ s : State, s.engine.configured = true →
    exec .checksum s = .next
      { engine := s.engine,
        inputs := s.inputs,
        responses := .ok ((match s.engine.cfg.reflectInput, s.engine.cfg.reflectOutput with
            | false, false => s.engine.crc ^^^ s.engine.cfg.finalXorValue
            | false, true => rev s.engine.crc ^^^ s.engine.cfg.finalXorValue
            | true, false => rev s.engine.crc ^^^ s.engine.cfg.finalXorValue
            | true, true => s.engine.crc ^^^ s.engine.cfg.finalXorValue).setWidth 64) :: s.responses }

/-- R163: `MATCH e` on a configured engine, `e` fitting in `w` bits, responds 1 exactly when the finalized register
equals `e`, else 0, and writes no state. -/
def Obligations.MatchComparesTheChecksum : Prop :=
  ∀ (s : State) (e : Word), s.engine.configured = true → (∀ k, s.engine.cfg.width.bits ≤ k → e.getLsbD k = false) →
    exec (.matchExpected e) s = .next
      { engine := s.engine,
        inputs := s.inputs,
        responses := .ok (if (finalize s.engine.cfg s.engine.crc).setWidth 64 = e then 1 else 0) :: s.responses }

/-- R78 (e), R163: `MATCH` of a value with a bit at or above position `w` is refused, not answered 0. -/
def Obligations.MatchRefusesOverWideValues : Prop :=
  ∀ (s : State) (e : Word) (k : Nat), s.engine.configured = true → s.engine.cfg.width.bits ≤ k →
    e.getLsbD k = true →
    exec (.matchExpected e) s = .next { s with responses := .err .illegalOperand :: s.responses }

/-- R162 (marked derived in the spec): any number of `CHECKSUM` and `MATCH` commands, in any order, leaves the
instance as it was, and the next of them gets the response that it would have got before them all. -/
def Obligations.ResultsAreStable : Prop :=
  ∀ (s : State) (body : List Instr) (last : Instr) (rest : List HostInput), s.engine.configured = true →
    (∀ i ∈ last :: body, i = .checksum ∨ ∃ e, i = .matchExpected e) →
    s.inputs = asInputs (body ++ [last]) ++ rest →
    ∃ t u before r, run (body.length + 1) s = .next t ∧ exec last s = .next u ∧
      t.engine = s.engine ∧ t.inputs = rest ∧ t.responses = r :: before ∧ u.responses = r :: s.responses

/-- R169: every value a `CHECKSUM` responds is less than `2^w`. -/
def Obligations.ChecksumsFitTheWidth : Prop :=
  ∀ (s t : State) (v : Word), exec .checksum s = .next t → t.responses = .ok v :: s.responses →
    v.toNat < 2 ^ s.engine.cfg.width.bits

/-- R37 (marked derived in the spec): `CHECKSUM` and `MATCH` read neither the table nor `polynomial` nor
`initialValue`: with those replaced, they answer the same. -/
def Obligations.ResultsIgnoreTableAndPolynomial : Prop :=
  ∀ (s : State) (i : Instr) (t : Table s.engine.cfg.width.bits) (poly init : s.engine.cfg.Reg),
    (i = .checksum ∨ ∃ e, i = .matchExpected e) →
    ∃ u v, exec i s = .next u ∧
      exec i { s with engine := { s.engine with
        cfg := { s.engine.cfg with polynomial := poly, initialValue := init }, table := t } } = .next v ∧
      u.responses = v.responses

/-! ### Macro-commands and the whole computation -/

/-- R146: `UPDATE.SEQ bytes` is the fold of the step over the bytes in index order; of the empty sequence it issues no
command and leaves all state unchanged. -/
def Obligations.UpdateSeqFoldsTheBytes : Prop :=
  ∀ (presets : Presets) (s : State) (bytes : List Byte) (rest : List HostInput), s.engine.configured = true →
    s.inputs = asInputs (Macro.expand presets (.updateSeq bytes)) ++ rest →
    run bytes.length s = .next
      { engine := { s.engine with crc := bytes.foldl (crcStep s.engine.cfg s.engine.table) s.engine.crc },
        inputs := rest,
        responses := List.replicate bytes.length (.ok 0) ++ s.responses }

/-- R164, R167: `COMPUTE bytes` on a coherent configured engine responds `crc(CFG, bytes)`, whatever `CRC` was, and
leaves `CRC` at the end of `bytes`. -/
def Obligations.ComputeRespondsTheCrc : Prop :=
  ∀ (presets : Presets) (s : State) (bytes : List Byte) (rest : List HostInput), s.Coherent →
    s.engine.configured = true → s.inputs = asInputs (Macro.expand presets (.compute bytes)) ++ rest →
    run (bytes.length + 2) s = .next
      { engine := { s.engine with crc := crcFold s.engine.cfg (tablegen s.engine.cfg) s.engine.cfg.initialValue bytes },
        inputs := rest,
        responses := .ok (zext64 (crcOf s.engine.cfg bytes)) ::
          (List.replicate (bytes.length + 1) (.ok 0) ++ s.responses) }

/-- R165: `VERIFY bytes, e`, with `e` a `w`-bit value in its carrier, responds 1 if `crc(CFG, bytes) = e` and 0
otherwise, and leaves the instance as `COMPUTE bytes` would. -/
def Obligations.VerifyComparesTheCrc : Prop :=
  ∀ (presets : Presets) (s : State) (bytes : List Byte) (e : Word) (rest : List HostInput), s.Coherent →
    s.engine.configured = true → (∀ k, s.engine.cfg.width.bits ≤ k → e.getLsbD k = false) →
    s.inputs = asInputs (Macro.expand presets (.verify bytes e)) ++ rest →
    run (bytes.length + 2) s = .next
      { engine := { s.engine with crc := crcFold s.engine.cfg (tablegen s.engine.cfg) s.engine.cfg.initialValue bytes },
        inputs := rest,
        responses := .ok (if zext64 (crcOf s.engine.cfg bytes) = e then 1 else 0) ::
          (List.replicate (bytes.length + 1) (.ok 0) ++ s.responses) }

/-- R170: `VERIFY` of a sequence against its own checksum answers 1, and against that checksum plus 1 modulo `2^w`
answers 0, at every width. -/
def Obligations.VerifyIsCorrect : Prop :=
  ∀ (presets : Presets) (s : State) (bytes : List Byte) (rest : List HostInput), s.Coherent →
    s.engine.configured = true →
    (s.inputs = asInputs (Macro.expand presets (.verify bytes (zext64 (crcOf s.engine.cfg bytes)))) ++ rest →
      ∃ t before, run (bytes.length + 2) s = .next t ∧ t.responses = .ok 1 :: before) ∧
    (s.inputs = asInputs (Macro.expand presets (.verify bytes (zext64 (crcOf s.engine.cfg bytes + 1#_)))) ++ rest →
      ∃ t before, run (bytes.length + 2) s = .next t ∧ t.responses = .ok 0 :: before)

/-- R166 (the general form marked derived in the spec): incremental feeding equals one-shot: after `RESET`, the bytes
may come in any pieces, with any `CHECKSUM` and `MATCH` commands between them; the final `CHECKSUM` responds `crc(CFG,
bytes)` for the bytes in order. -/
def Obligations.IncrementalEqualsOneShot : Prop :=
  ∀ (s : State) (body : List Instr) (rest : List HostInput), s.Coherent → s.engine.configured = true →
    (∀ i ∈ body, i ≠ .reset ∧ ∀ c, i ≠ .new c) →
    s.inputs = asInputs (.reset :: (body ++ [.checksum])) ++ rest →
    ∃ t before, run (body.length + 2) s = .next t ∧ t.inputs = rest ∧
      t.responses = .ok (zext64 (crcOf s.engine.cfg (body.filterMap fun i =>
        match i with
        | .update b => some b
        | _ => none))) :: before

/-- R168: the checksum of the empty input is `initialValue`, reversed over its `w` bits exactly when `reflectOutput !=
reflectInput`, exclusive-or `finalXorValue`; a `CHECKSUM` responds it directly after `NEW`, in any state, and directly
after `RESET`. -/
def Obligations.EmptyInputChecksum : Prop :=
  ∀ (cfg : Configuration) (s : State) (rest : List HostInput),
    let empty : cfg.Reg :=
      (if cfg.reflectOutput ≠ cfg.reflectInput then rev cfg.initialValue else cfg.initialValue) ^^^ cfg.finalXorValue
    crcOf cfg [] = empty ∧
    ((s.inputs = asInputs [.new (cfgPack cfg), .checksum] ++ rest ∨
        (s.engine.configured = true ∧ s.engine.cfg = cfg ∧ s.inputs = asInputs [.reset, .checksum] ++ rest)) →
      ∃ t, run 2 s = .next t ∧ t.inputs = rest ∧ t.responses = .ok (zext64 empty) :: .ok 0 :: s.responses)

/-- R173: the one-shot functions: on an engine in any state, configured or not, the result is `crc(PRESETS[name],
bytes)`, whatever the registry holds. -/
def Obligations.OneShotRespondsThePresetsCrc : Prop :=
  ∀ (presets : Presets) (name : PresetName) (s : State) (bytes : List Byte) (rest : List HostInput),
    s.inputs = asInputs (Macro.expand presets (.oneShot name bytes)) ++ rest →
    ∃ t before, run (bytes.length + 3) s = .next t ∧ t.inputs = rest ∧
      t.responses = .ok (zext64 (crcOf (presets name) bytes)) :: before

/-- R171 (general knowledge, log entry 5): the checksum is that of the widely used parametrised model, `init` being
`initialValue` when `reflectInput = 0` and its bit reversal when `reflectInput = 1`. -/
def Obligations.AgreesWithTheParametrisedModel : Prop :=
  ∀ (cfg : Configuration) (bytes : List Byte),
    crcOf cfg bytes = parametrisedCrc cfg.polynomial
      (if cfg.reflectInput = true then rev cfg.initialValue else cfg.initialValue) cfg.finalXorValue
      cfg.reflectInput cfg.reflectOutput bytes

/-! ### Several instances -/

/-- R35, R191 (instances side by side: log entry 15): a step of one instance leaves every other instance as it was,
and steps of two instances give the same system in either order. -/
def Obligations.InstancesDoNotInteract : Prop :=
  ∀ (n : Nat) (j k : Fin n) (sys : System n), j ≠ k →
    ∃ a b both, System.stepAt j sys = .next a ∧ System.stepAt k sys = .next b ∧
      (∀ m, m ≠ j → a.engines[m] = sys.engines[m]) ∧
      System.stepAt k a = .next both ∧ System.stepAt j b = .next both
end

