-- ==== Sys2Proof/Laws/Bits.lean ====
section
/-! SUPPORT. Slices of concatenations, and the packed configuration object. -/

namespace Sys2Proof.Laws

theorem ofSel_sel (w : Width) : Width.ofSel w.sel = w := by cases w <;> rfl

theorem sel_ofSel (x : BitVec 2) : (Width.ofSel x).sel = x := by revert x; decide

theorem bits_ofSel (x : BitVec 2) : (Width.ofSel x).bits = 8 <<< x.toNat := by revert x; decide

theorem eight_le_bits (w : Width) : 8 ≤ w.bits := by cases w <;> decide

theorem bits_le_64 (w : Width) : w.bits ≤ 64 := by cases w <;> decide

theorem extract_append_low {m n : Nat} (a : BitVec m) (b : BitVec n) (s l : Nat) (h : s + l ≤ n) :
    (a ++ b).extractLsb' s l = b.extractLsb' s l := by
  ext i hi
  simp [BitVec.getLsbD_append, show s + i < n by omega]

theorem extract_append_high {m n : Nat} (a : BitVec m) (b : BitVec n) (s l : Nat) (h : n ≤ s) :
    (a ++ b).extractLsb' s l = a.extractLsb' (s - n) l := by
  ext i hi
  simp [BitVec.getLsbD_append, show ¬ s + i < n by omega, show s + i - n = s - n + i by omega]

theorem extract_self {n : Nat} (a : BitVec n) : a.extractLsb' 0 n = a := by
  ext i hi
  simp

theorem append_extract {n m : Nat} (x : BitVec (n + m)) : x.extractLsb' m n ++ x.extractLsb' 0 m = x := by
  ext i hi
  rw [BitVec.getElem_append]
  split
  · simp [BitVec.getLsbD_eq_getElem hi]
  · simp [show m + (i - m) = i by omega, hi]

theorem opcodeOf_encode (i : Instr) : opcodeOf (encode i) = i.opcode :=
  (extract_append_high i.opcode i.payload 196 4 (by omega)).trans (extract_self _)

theorem payloadOf_encode (i : Instr) : payloadOf (encode i) = i.payload :=
  (extract_append_low i.opcode i.payload 0 196 (by omega)).trans (extract_self _)

theorem extract_one {n : Nat} (x : BitVec n) (k : Nat) : x.extractLsb' k 1 = BitVec.ofBool (x.getLsbD k) := by
  ext i hi
  have : i = 0 := by omega
  subst this; simp

theorem unpack_pack (c : CfgObj) : unpackCfg (packCfg c) = c := by
  obtain ⟨w, ri, ro, p, i, x⟩ := c
  have hx : (packCfg ⟨w, ri, ro, p, i, x⟩).extractLsb' 0 64 = x :=
    (extract_append_low _ x 0 64 (by omega)).trans (extract_self _)
  have hi : (packCfg ⟨w, ri, ro, p, i, x⟩).extractLsb' 64 64 = i :=
    (extract_append_high _ x 64 64 (by omega)).trans ((extract_append_low _ i 0 64 (by omega)).trans (extract_self _))
  have hp : (packCfg ⟨w, ri, ro, p, i, x⟩).extractLsb' 128 64 = p :=
    (extract_append_high _ x 128 64 (by omega)).trans ((extract_append_high _ i 64 64 (by omega)).trans
      ((extract_append_low _ p 0 64 (by omega)).trans (extract_self _)))
  have top : ∀ k l, (packCfg ⟨w, ri, ro, p, i, x⟩).extractLsb' (192 + k) l
      = (w.sel ++ BitVec.ofBool ri ++ BitVec.ofBool ro).extractLsb' k l := fun k l =>
    (extract_append_high _ x (192 + k) l (by omega)).trans ((extract_append_high _ i _ l (by omega)).trans
      ((extract_append_high _ p _ l (by omega)).trans (by rw [show 192 + k - 64 - 64 - 64 = k by omega])))
  have hw : (packCfg ⟨w, ri, ro, p, i, x⟩).extractLsb' 194 2 = w.sel := by
    rw [top 2 2]; cases w <;> cases ri <;> cases ro <;> decide
  have hri : (packCfg ⟨w, ri, ro, p, i, x⟩).getLsbD 193 = ri := by
    have := (extract_one (packCfg ⟨w, ri, ro, p, i, x⟩) 193).symm.trans (top 1 1)
    revert this
    generalize (packCfg ⟨w, ri, ro, p, i, x⟩).getLsbD 193 = g
    revert g; cases w <;> cases ri <;> cases ro <;> decide
  have hro : (packCfg ⟨w, ri, ro, p, i, x⟩).getLsbD 192 = ro := by
    have := (extract_one (packCfg ⟨w, ri, ro, p, i, x⟩) 192).symm.trans (top 0 1)
    revert this
    generalize (packCfg ⟨w, ri, ro, p, i, x⟩).getLsbD 192 = g
    revert g; cases w <;> cases ri <;> cases ro <;> decide
  rw [unpackCfg, hx, hi, hp, hw, hri, hro, ofSel_sel]

theorem pack_unpack (p : Payload) : packCfg (unpackCfg p) = p := by
  apply BitVec.eq_of_getLsbD_eq
  intro i hi
  simp only [packCfg, unpackCfg, sel_ofSel, BitVec.getLsbD_append, BitVec.getLsbD_extractLsb', BitVec.getLsbD_ofBool]
  split_ifs with h1 h2 h3 h4 h5
  · simp [h1]
  · simp [h2, show 64 + (i - 64) = i by omega]
  · simp [h3, show 128 + (i - 64 - 64) = i by omega]
  · simp [show i = 192 by omega]
  · simp [show i = 193 by omega]
  · simp [show 194 + (i - 64 - 64 - 64 - 1 - 1) = i by omega, show i - 64 - 64 - 64 - 1 - 1 < 2 by omega]

theorem append_zero_high {n m : Nat} (x : BitVec (n + m)) (h : x.extractLsb' m n = 0#n) :
    0#n ++ x.extractLsb' 0 m = x := by
  rw [← h]; exact append_extract x

theorem ifReservedZero_ok {n : Nat} {r : BitVec n} {i j : Instr} (h : ifReservedZero r i = .ok j) :
    r = 0#n ∧ i = j := by
  unfold ifReservedZero at h
  split at h
  · exact ⟨by assumption, by simpa using h⟩
  · cases h

end Sys2Proof.Laws
end

