-- ==== Sys2Proof/Laws/Division.lean ====
section
/-! SUPPORT. The bit-reflection unit, the division steps (linear over exclusive-or, conjugate under reflection) and
the entries of the table. -/

namespace Sys2Proof.Laws

open Sys2Proof.Machine

theorem rev_getLsbD {n : Nat} (v : BitVec n) (i : Nat) :
    (rev v).getLsbD i = (decide (i < n) && v.getLsbD (n - 1 - i)) := by
  simp only [rev, BitVec.getLsbD_reverse, BitVec.getMsbD_eq_getLsbD]

theorem rev_getElem {n : Nat} (v : BitVec n) (i : Nat) (h : i < n) : (rev v)[i] = v.getLsbD (n - 1 - i) := by
  rw [← BitVec.getLsbD_eq_getElem, rev_getLsbD, decide_eq_true h, Bool.true_and]

theorem rev_rev {n : Nat} (v : BitVec n) : rev (rev v) = v := by
  simp [rev]

theorem rev_xor {n : Nat} (a b : BitVec n) : rev (a ^^^ b) = rev a ^^^ rev b := by
  ext i h
  simp [rev_getElem]

theorem rev_ushiftRight {n : Nat} (v : BitVec n) (k : Nat) : rev (v >>> k) = rev v <<< k := by
  ext i h
  by_cases hk : i < k
  · simp [rev_getElem, hk, BitVec.getLsbD_of_ge v (k + (n - 1 - i)) (by omega)]
  · simp [rev_getElem, hk, show k + (n - 1 - i) = n - 1 - (i - k) by omega]

theorem rev_shiftLeft {n : Nat} (v : BitVec n) (k : Nat) : rev (v <<< k) = rev v >>> k := by
  rw [← rev_rev (rev v >>> k), rev_ushiftRight, rev_rev]

theorem divStepMsb_xor {w : Nat} (p a b : BitVec w) :
    divStepMsb p (a ^^^ b) = divStepMsb p a ^^^ divStepMsb p b := by
  unfold divStepMsb
  rw [BitVec.getLsbD_xor, BitVec.shiftLeft_xor_distrib]
  cases a.getLsbD (w - 1) <;> cases b.getLsbD (w - 1) <;> ext i h <;> simp <;>
    cases p[i] <;> cases decide (i < 1) <;> simp

theorem divStepLsb_xor {w : Nat} (p a b : BitVec w) :
    divStepLsb p (a ^^^ b) = divStepLsb p a ^^^ divStepLsb p b := by
  unfold divStepLsb
  rw [BitVec.getLsbD_xor, BitVec.ushiftRight_xor_distrib]
  cases a.getLsbD 0 <;> cases b.getLsbD 0 <;> ext i h <;> simp <;> cases p[i] <;> simp

theorem iterate_xor {w : Nat} (f : BitVec w → BitVec w) (hf : ∀ a b, f (a ^^^ b) = f a ^^^ f b) (k : Nat) :
    ∀ a b, f^[k] (a ^^^ b) = f^[k] a ^^^ f^[k] b := by
  induction k with
  | zero => intro a b; rfl
  | succ k ih => intro a b; simp only [Function.iterate_succ, Function.comp_apply, hf, ih]

theorem divMsb_xor {w : Nat} (p a b : BitVec w) : divMsb p (a ^^^ b) = divMsb p a ^^^ divMsb p b :=
  iterate_xor _ (divStepMsb_xor p) 8 a b

theorem divLsb_xor {w : Nat} (p a b : BitVec w) : divLsb p (a ^^^ b) = divLsb p a ^^^ divLsb p b :=
  iterate_xor _ (divStepLsb_xor (rev p)) 8 a b

theorem rev_divStepMsb {w : Nat} (p r : BitVec w) : rev (divStepMsb p r) = divStepLsb (rev p) (rev r) := by
  have e : (rev r).getLsbD 0 = r.getLsbD (w - 1) := by
    rw [rev_getLsbD]
    by_cases h : 0 < w
    · simp [h]
    · have : w = 0 := by omega
      subst this; simp
  unfold divStepMsb divStepLsb
  rw [e]
  split <;> simp only [rev_xor, rev_shiftLeft]

theorem rev_iterate {w : Nat} (f g : BitVec w → BitVec w) (h : ∀ r, rev (f r) = g (rev r)) (k : Nat) :
    ∀ r, rev (f^[k] r) = g^[k] (rev r) := by
  induction k with
  | zero => intro r; rfl
  | succ k ih => intro r; simp only [Function.iterate_succ, Function.comp_apply, ih, h]

theorem rev_divMsb {w : Nat} (p r : BitVec w) : rev (divMsb p r) = divLsb p (rev r) :=
  rev_iterate _ _ (rev_divStepMsb p) 8 r

theorem divLsb_eq {w : Nat} (p r : BitVec w) : divLsb p r = rev (divMsb p (rev r)) := by
  rw [rev_divMsb, rev_rev]

theorem rev_byteAtTop {w : Nat} (h : 8 ≤ w) (b : Byte) : rev (byteAtTop w b) = byteAtLow w (rev b) := by
  ext i hi
  simp only [byteAtTop, byteAtLow, rev_getElem, BitVec.getElem_setWidth, rev_getLsbD, BitVec.getLsbD_shiftLeft,
    BitVec.getLsbD_setWidth]
  by_cases h8 : i < 8
  · have e : w - 1 - i - (w - 8) = 8 - 1 - i := by omega
    rw [e]; simp [h8, show w - 1 - i < w by omega, show ¬ w - 1 - i < w - 8 by omega, show 8 - 1 - i < w by omega]
  · simp [h8, show w - 1 - i < w - 8 by omega]

theorem rev_byteAtLow {w : Nat} (h : 8 ≤ w) (b : Byte) : rev (byteAtLow w b) = byteAtTop w (rev b) := by
  rw [← rev_rev (byteAtTop w (rev b)), rev_byteAtTop h, rev_rev]

theorem byteAtTop_xor {w : Nat} (a b : Byte) : byteAtTop w (a ^^^ b) = byteAtTop w a ^^^ byteAtTop w b := by
  rw [byteAtTop, BitVec.setWidth_xor, BitVec.shiftLeft_xor_distrib]; rfl

theorem byteAtLow_xor {w : Nat} (a b : Byte) : byteAtLow w (a ^^^ b) = byteAtLow w a ^^^ byteAtLow w b := by
  rw [byteAtLow, BitVec.setWidth_xor]; rfl

theorem topByte_byteAtTop {w : Nat} (h : 8 ≤ w) (b : Byte) : topByte (byteAtTop w b) = b := by
  ext i hi
  simp [topByte, byteAtTop, show w - 8 + i < w by omega, hi]

theorem topByte_xor {w : Nat} (a b : BitVec w) : topByte (a ^^^ b) = topByte a ^^^ topByte b := by
  ext i hi
  simp [topByte]

theorem byteAtTop_shiftLeft {w : Nat} (h : 8 ≤ w) (b : Byte) : byteAtTop w b <<< 8 = 0#w := by
  rw [byteAtTop, ← BitVec.shiftLeft_add, BitVec.shiftLeft_eq_zero (by omega)]

theorem divMsb_shift {w : Nat} (h : 8 ≤ w) (p r : BitVec w) (hr : topByte r = 0#8) : divMsb p r = r <<< 8 := by
  have step : ∀ k, k ≤ 8 → (divStepMsb p)^[k] r = r <<< k := by
    intro k
    induction k with
    | zero => intro _; simp
    | succ k ih =>
      intro hk
      rw [Function.iterate_succ_apply', ih (by omega)]
      have z : r.getLsbD (w - 1 - k) = false := by
        have := congrArg (fun v => v.getLsbD (7 - k)) hr
        simp only [topByte, BitVec.getLsbD_extractLsb', BitVec.getLsbD_zero] at this
        rw [show w - 1 - k = w - 8 + (7 - k) by omega]
        simpa [show 7 - k < 8 by omega] using this
      have : (r <<< k).getLsbD (w - 1) = false := by
        rw [BitVec.getLsbD_shiftLeft, z]; simp
      rw [divStepMsb, this, if_neg (by simp), ← BitVec.shiftLeft_add]
  exact step 8 (Nat.le_refl 8)

theorem tblRead_tablegen (cfg : Configuration) (i : Byte) : tblRead (tablegen cfg) i = tableEntry cfg i := by
  simp [tblRead, tablegen]

theorem tableEntry_msb {cfg : Configuration} (h : cfg.reflectInput = false) (i : Byte) :
    tableEntry cfg i = divMsb cfg.polynomial (byteAtTop _ i) := by
  simp [tableEntry, h]

theorem tableEntry_lsb {cfg : Configuration} (h : cfg.reflectInput = true) (i : Byte) :
    tableEntry cfg i = divLsb cfg.polynomial (byteAtLow _ i) := by
  simp [tableEntry, h]

theorem tblRead_tblWrite_same {w : Nat} (t : Table w) (i : Byte) (v : BitVec w) : tblRead (tblWrite t i v) i = v := by
  simp [tblRead, tblWrite]

theorem tblRead_tblWrite_other {w : Nat} (t : Table w) (i j : Byte) (v : BitVec w) (h : i ≠ j) :
    tblRead (tblWrite t i v) j = tblRead t j := by
  have : i.toNat ≠ j.toNat := fun e => h (BitVec.eq_of_toNat_eq e)
  simp [tblRead, tblWrite, this]

theorem table_ext {w : Nat} {t u : Table w} (h : ∀ i : Byte, tblRead t i = tblRead u i) : t = u := by
  apply Vector.ext
  intro i hi
  have := h (BitVec.ofNat 8 i)
  simpa [tblRead, Nat.mod_eq_of_lt hi] using this

/-! ### The step over the generated table, one entry at a time -/

/-- With the generated table, one step is the shift and one computed entry; no other entry matters. -/
theorem crcStep_tablegen (cfg : Configuration) (reg : cfg.Reg) (b : Byte) :
    crcStep cfg (tablegen cfg) reg b =
      if cfg.reflectInput then (reg >>> 8) ^^^ tableEntry cfg (lowByte reg ^^^ b)
      else (reg <<< 8) ^^^ tableEntry cfg (topByte reg ^^^ b) := by
  simp only [crcStep, stepMsb, stepLsb, tblRead_tablegen]

/-- The checksum with each entry computed where it is read, never the whole table. -/
theorem crcOf_eq_fold_entries (cfg : Configuration) (bytes : List Byte) :
    crcOf cfg bytes = finalize cfg (bytes.foldl (fun reg b =>
      if cfg.reflectInput then (reg >>> 8) ^^^ tableEntry cfg (lowByte reg ^^^ b)
      else (reg <<< 8) ^^^ tableEntry cfg (topByte reg ^^^ b)) cfg.initialValue) := by
  rw [crcOf, crcFold, funext₂ (crcStep_tablegen cfg)]

end Sys2Proof.Laws
end

