-- ==== Sys2Proof/Laws/PerInstr.lean ====
section
/-! SUPPORT. Per-command statements: the command's word selects the command's own row of spec/opcode_table.json. -/

/-- The row's `match` value, as the table lists it (its mask covers the opcode, `CW[199:196]`). -/
def Sys2Proof.Laws.rowMatch : Sys2Proof.Instr → Sys2Proof.CommandWord
  | .new _ => 0x10000000000000000000000000000000000000000000000000#200
  | .reset => 0x20000000000000000000000000000000000000000000000000#200
  | .update _ => 0x30000000000000000000000000000000000000000000000000#200
  | .checksum => 0x40000000000000000000000000000000000000000000000000#200
  | .matchExpected _ => 0x50000000000000000000000000000000000000000000000000#200

/-- The word of a command has the opcode of its row's `match` value. -/
def Sys2Proof.Laws.RowSelected.Statement (i : Sys2Proof.Instr) : Prop :=
  Sys2Proof.opcodeOf (Sys2Proof.encode i) = Sys2Proof.opcodeOf (Sys2Proof.Laws.rowMatch i)

theorem Sys2Proof.Laws.RowSelected.new (c : Sys2Proof.CfgObj) : Sys2Proof.Laws.RowSelected.Statement (.new c) :=
  (Sys2Proof.Laws.opcodeOf_encode (.new c)).trans (by simp only [Sys2Proof.Instr.opcode, Sys2Proof.Laws.rowMatch]; decide)

theorem Sys2Proof.Laws.RowSelected.reset : Sys2Proof.Laws.RowSelected.Statement .reset :=
  (Sys2Proof.Laws.opcodeOf_encode .reset).trans (by simp only [Sys2Proof.Instr.opcode, Sys2Proof.Laws.rowMatch]; decide)

theorem Sys2Proof.Laws.RowSelected.update (b : Sys2Proof.Byte) : Sys2Proof.Laws.RowSelected.Statement (.update b) :=
  (Sys2Proof.Laws.opcodeOf_encode (.update b)).trans (by simp only [Sys2Proof.Instr.opcode, Sys2Proof.Laws.rowMatch]; decide)

theorem Sys2Proof.Laws.RowSelected.checksum : Sys2Proof.Laws.RowSelected.Statement .checksum :=
  (Sys2Proof.Laws.opcodeOf_encode .checksum).trans (by simp only [Sys2Proof.Instr.opcode, Sys2Proof.Laws.rowMatch]; decide)

theorem Sys2Proof.Laws.RowSelected.matchExpected (e : Sys2Proof.Word) :
    Sys2Proof.Laws.RowSelected.Statement (.matchExpected e) :=
  (Sys2Proof.Laws.opcodeOf_encode (.matchExpected e)).trans (by simp only [Sys2Proof.Instr.opcode, Sys2Proof.Laws.rowMatch]; decide)
end

