-- ==== Sys2Proof/Laws/State.lean ====
section
/-! SUPPORT. What each operation on the state does to each field, and what a step and each command can do. -/

namespace Sys2Proof.Laws

open Sys2Proof.Machine

/-! ### One lemma per field per update -/

@[simp] theorem respond_engine (v : Word) (s : State) : (respond v s).engine = s.engine := rfl
@[simp] theorem respond_inputs (v : Word) (s : State) : (respond v s).inputs = s.inputs := rfl
@[simp] theorem respond_responses (v : Word) (s : State) : (respond v s).responses = .ok v :: s.responses := rfl

@[simp] theorem raise_engine (c : Cause) (s : State) : (raise c s).engine = s.engine := rfl
@[simp] theorem raise_inputs (c : Cause) (s : State) : (raise c s).inputs = s.inputs := rfl
@[simp] theorem raise_responses (c : Cause) (s : State) : (raise c s).responses = .err c :: s.responses := rfl

@[simp] theorem writeCrc_configured (s : State) (v : s.engine.cfg.Reg) :
    (writeCrc s v).engine.configured = s.engine.configured := rfl
@[simp] theorem writeCrc_cfg (s : State) (v : s.engine.cfg.Reg) : (writeCrc s v).engine.cfg = s.engine.cfg := rfl
@[simp] theorem writeCrc_table (s : State) (v : s.engine.cfg.Reg) :
    (writeCrc s v).engine.table = s.engine.table := rfl
@[simp] theorem writeCrc_crc (s : State) (v : s.engine.cfg.Reg) : (writeCrc s v).engine.crc = v := rfl
@[simp] theorem writeCrc_inputs (s : State) (v : s.engine.cfg.Reg) : (writeCrc s v).inputs = s.inputs := rfl
@[simp] theorem writeCrc_responses (s : State) (v : s.engine.cfg.Reg) :
    (writeCrc s v).responses = s.responses := rfl

@[simp] theorem construct_configured (c : Configuration) (s : State) :
    (construct c s).engine.configured = true := rfl
@[simp] theorem construct_cfg (c : Configuration) (s : State) : (construct c s).engine.cfg = c := rfl
@[simp] theorem construct_table (c : Configuration) (s : State) : (construct c s).engine.table = tablegen c := rfl
@[simp] theorem construct_crc (c : Configuration) (s : State) : (construct c s).engine.crc = c.initialValue := rfl
@[simp] theorem construct_inputs (c : Configuration) (s : State) : (construct c s).inputs = s.inputs := rfl
@[simp] theorem construct_responses (c : Configuration) (s : State) :
    (construct c s).responses = s.responses := rfl

@[simp] theorem hardwareReset_engine (s : State) : (hardwareReset s).engine = Engine.reset := rfl
@[simp] theorem hardwareReset_inputs (s : State) : (hardwareReset s).inputs = s.inputs := rfl
@[simp] theorem hardwareReset_responses (s : State) : (hardwareReset s).responses = s.responses := rfl

@[simp] theorem presentWord_engine (cw : CommandWord) (s : State) : (presentWord cw s).engine = s.engine := rfl
@[simp] theorem presentWord_inputs (cw : CommandWord) (s : State) :
    (presentWord cw s).inputs = .command cw :: s.inputs := rfl
@[simp] theorem presentWord_responses (cw : CommandWord) (s : State) :
    (presentWord cw s).responses = s.responses := rfl

@[simp] theorem reset_configured : Engine.reset.configured = false := rfl
@[simp] theorem state_reset_engine : State.reset.engine = Engine.reset := rfl
@[simp] theorem state_reset_inputs : State.reset.inputs = [] := rfl
@[simp] theorem state_reset_responses : State.reset.responses = [] := rfl

/-! ### The `CONFIGURED` check -/

theorem whenConfigured_true {s : State} (h : s.engine.configured = true) (done : State) :
    whenConfigured s done = done := if_pos h

theorem whenConfigured_false {s : State} (h : s.engine.configured = false) (done : State) :
    whenConfigured s done = raise .notConfigured s := if_neg (by simp [h])

/-! ### What a command can do -/

/-- Everything a command can do to the state: be refused, with the causes and the condition of each, changing
nothing of the instance; construct a fitting configuration; write `CRC` of a configured engine; or respond a result
of a configured engine. -/
theorem exec_cases (i : Instr) (s : State) :
    (∃ c, (c = .notConfigured ∧ s.engine.configured = false ∨ c = .illegalOperand) ∧
      exec i s = .next (raise c s)) ∨
    (∃ c, i = .new c ∧ cfgFits c = true ∧ exec i s = .next (respond 0 (construct (cfgLatch c) s))) ∨
    (s.engine.configured = true ∧ ∃ v, exec i s = .next (respond 0 (writeCrc s v))) ∨
    (s.engine.configured = true ∧ ∃ v, exec i s = .next (respond v s)) := by
  have unconfigured (h : s.engine.configured = false) (done : State) :
      ∃ c, (c = .notConfigured ∧ false = false ∨ c = .illegalOperand) ∧
        (.next (whenConfigured s done) : Host.Outcome State Fault Refusal) = .next (raise c s) :=
    ⟨.notConfigured, .inl ⟨rfl, rfl⟩, congrArg Host.Outcome.next (whenConfigured_false h _)⟩
  cases i with
  | new c =>
    by_cases h : cfgFits c = true
    · exact .inr (.inl ⟨c, rfl, h, by simp [exec, execNew, h]⟩)
    · exact .inl ⟨.illegalOperand, .inr rfl, by simp [exec, execNew, h]⟩
  | reset =>
    cases h : s.engine.configured
    · exact .inl (unconfigured h _)
    · exact .inr (.inr (.inl ⟨rfl, _, congrArg Host.Outcome.next (whenConfigured_true h _)⟩))
  | update b =>
    cases h : s.engine.configured
    · exact .inl (unconfigured h _)
    · exact .inr (.inr (.inl ⟨rfl, _, congrArg Host.Outcome.next (whenConfigured_true h _)⟩))
  | checksum =>
    cases h : s.engine.configured
    · exact .inl (unconfigured h _)
    · exact .inr (.inr (.inr ⟨rfl, _, congrArg Host.Outcome.next (whenConfigured_true h _)⟩))
  | matchExpected e =>
    cases h : s.engine.configured
    · exact .inl (unconfigured h _)
    · by_cases f : fits s.engine.cfg.width.bits e = true
      · exact .inr (.inr (.inr ⟨rfl, matchBit (finalize s.engine.cfg s.engine.crc) (operand _ e),
          by simp [exec, execMatch, whenConfigured_true h, f]⟩))
      · exact .inl ⟨.illegalOperand, .inr rfl, by simp [exec, execMatch, whenConfigured_true h, f]⟩

/-! ### What a step can do -/

theorem step_idle {s : State} (h : s.inputs = []) : step s = .next s := by
  simp [step, takeInput, h]

theorem step_hardwareReset {s : State} {rest : List HostInput} (h : s.inputs = .hardwareReset :: rest) :
    step s = .next (hardwareReset { s with inputs := rest }) := by
  simp [step, takeInput, h]

theorem step_refused {s : State} {cw : CommandWord} {rest : List HostInput} {c : Cause}
    (h : s.inputs = .command cw :: rest) (d : decode cw = .error c) :
    step s = .next (raise c { s with inputs := rest }) := by
  simp [step, takeInput, h, d]

theorem step_executes {s : State} {cw : CommandWord} {rest : List HostInput} {i : Instr}
    (h : s.inputs = .command cw :: rest) (d : decode cw = .ok i) :
    step s = exec i { s with inputs := rest } := by
  simp [step, takeInput, h, d]

/-- Everything a step can do: idle, hardware reset, a word refused by the decoder, or a command executed. -/
theorem step_cases {s t : State} (h : step s = .next t) :
    (s.inputs = [] ∧ t = s) ∨
    (∃ rest, s.inputs = .hardwareReset :: rest ∧ t = hardwareReset { s with inputs := rest }) ∨
    (∃ cw rest c, s.inputs = .command cw :: rest ∧ decode cw = .error c ∧ t = raise c { s with inputs := rest }) ∨
    (∃ cw rest i, s.inputs = .command cw :: rest ∧ decode cw = .ok i ∧
      exec i { s with inputs := rest } = .next t) := by
  cases hi : s.inputs with
  | nil =>
    rw [step_idle hi] at h
    cases h
    exact .inl ⟨rfl, rfl⟩
  | cons x rest =>
    cases x with
    | hardwareReset =>
      rw [step_hardwareReset hi] at h
      cases h
      exact .inr (.inl ⟨rest, rfl, rfl⟩)
    | command cw =>
      cases d : decode cw with
      | error c =>
        rw [step_refused hi d] at h
        cases h
        exact .inr (.inr (.inl ⟨cw, rest, c, rfl, d, rfl⟩))
      | ok i =>
        rw [step_executes hi d] at h
        exact .inr (.inr (.inr ⟨cw, rest, i, rfl, d, h⟩))

/-! ### Runs -/

@[simp] theorem run_zero (s : State) : run 0 s = .next s := rfl

theorem run_succ {s t : State} (k : Nat) (h : step s = .next t) : run (k + 1) s = run k t := by
  simp only [run, h]

theorem run_add {s t : State} (j k : Nat) (h : run j s = .next t) : run (j + k) s = run k t := by
  induction j generalizing s with
  | zero => cases h; rw [Nat.zero_add]
  | succ j ih =>
    cases e : step s with
    | next u => rw [Nat.add_right_comm, run_succ _ e]; rw [run_succ _ e] at h; exact ih h
    | fault r => cases r
    | refused r => simp only [run, e] at h; cases h

/-- `run` is the host's own iteration of the machine. -/
theorem core_run_eq_run (k : Nat) (s : State) : Host.Core.run Sys2Proof.core k s = run k s := by
  induction k generalizing s with
  | zero => rfl
  | succ k ih =>
    refine (Host.Core.run.eq_2 Sys2Proof.core s k).trans ?_
    cases e : step s with
    | next t =>
      have e' : Sys2Proof.core.step s = .next t := e
      rw [run_succ k e, e']
      exact ih t
    | fault r => cases r
    | refused r =>
      have e' : Sys2Proof.core.step s = .refused r := e
      rw [e']
      simp only [run, e]
      rfl

end Sys2Proof.Laws
end

