-- ==== Sys2Proof/Tests/Slice0.lean ====
section
/-! SUPPORT. Tests of single operations against the spec's own numbers, and a witness of the hypotheses of every
statement that has some. Expected values come from spec/95_test_vectors.md and the rules named. -/

namespace Sys2Proof.Tests

open Sys2Proof.Machine

set_option Elab.async false

/-! ### Small states -/

/-- A constructed engine at rest, with the given register and port. -/
def stateAt (cfg : Configuration) (crc : cfg.Reg) (inputs : List HostInput) : State :=
  { engine := { configured := true, cfg := cfg, table := tablegen cfg, crc := crc }, inputs := inputs, responses := [] }

/-- "C8" of spec/95 section 3.14: CRC-8 with `CRC = 0xF4`. -/
def c8 : State := stateAt (defaultPresets .crc8) 0xF4#8 []

/-- "C32" of spec/95 section 3.14: CRC-32 with `CRC = 0x340BC6D9`. -/
def c32 : State := stateAt (defaultPresets .crc32) 0x340BC6D9#32 []

/-- The response to a command word sent to a state. -/
def answer (s : State) (cw : CommandWord) : Option Response :=
  match step (presentWord cw s) with
  | .next t => t.responses.head?
  | _ => none

/-- The running register after a command word. -/
def crcAfter (s : State) (cw : CommandWord) : Option Nat :=
  match step (presentWord cw s) with
  | .next t => some t.engine.crc.toNat
  | _ => none

theorem coherent_stateAt (cfg : Configuration) (crc : cfg.Reg) (inputs : List HostInput) :
    (stateAt cfg crc inputs).Coherent := fun _ => rfl

/-! ### Well-formedness refuses an ill-formed term for each check (R78 d) -/

theorem test_illFormed_polynomial : (Instr.new ⟨.w8, false, false, 0x107#64, 0#64, 0#64⟩).wellFormed = false := by decide
theorem test_illFormed_initialValue : (Instr.new ⟨.w8, false, false, 0x07#64, 0x100#64, 0#64⟩).wellFormed = false := by decide
theorem test_illFormed_finalXor : (Instr.new ⟨.w16, false, false, 0x1021#64, 0xFFFF#64, 0x10000#64⟩).wellFormed = false := by decide
theorem test_wellFormed_widest : (Instr.new ⟨.w64, false, false, BitVec.allOnes 64, BitVec.allOnes 64, BitVec.allOnes 64⟩).wellFormed = true := by decide

/-! ### Decoding of words written out from R71 to R76 -/

/-- spec/95 section 3.13, CRC-16/CCITT-FALSE, `1.4.…1021.…FFFF.…0000`. -/
theorem test_decode_new : decode 0x140000000000001021000000000000FFFF0000000000000000#200
    = .ok (.new ⟨.w16, false, false, 0x1021#64, 0xFFFF#64, 0#64⟩) := by decide +kernel
/-- R85: `f = 0x6` is width 16, refin 1, refout 0; the three groups are polynomial, initial value, final XOR. -/
theorem test_decode_new_fields : decode 0x1600000000000010210000000000001D0F0000000000000001#200
    = .ok (.new ⟨.w16, true, false, 0x1021#64, 0x1D0F#64, 0x1#64⟩) := by decide +kernel
theorem test_decode_reset : decode (0x2#4 ++ 0#196) = .ok .reset := by decide +kernel
theorem test_decode_update : decode (0x3#4 ++ 0#188 ++ 0b10110001#8) = .ok (.update 0xB1#8) := by decide +kernel
theorem test_decode_checksum : decode (0x4#4 ++ 0#196) = .ok .checksum := by decide +kernel
theorem test_decode_match : decode (0x5#4 ++ 0#132 ++ 0xCBF43926#64) = .ok (.matchExpected 0xCBF43926#64) := by
  decide +kernel
theorem test_decode_zero_word : decode 0#200 = .error .illegalOpcode := by decide +kernel
theorem test_decode_ones_word : decode (BitVec.allOnes 200) = .error .illegalOpcode := by decide +kernel
theorem test_decode_update_reserved : decode (0x3#4 ++ 0#187 ++ 1#1 ++ 0x31#8) = .error .illegalOperand := by
  decide +kernel
theorem test_table_row_numbering :
    decodeTableWord 200 0x30000000000000000000000000000000000000000000000000 = some (.update 0#8) := by decide +kernel

/-! ### One step per command (spec/95 sections 3.14 and P1 to P6) -/

theorem test_new_loads_unreflected :
    crcAfter State.reset 0x1600000000000010210000000000001D0F0000000000000001#200 = some 0x1D0F := by decide +kernel
theorem test_new_over_wide : answer c32 0x180000000104C11DB700000000FFFFFFFF00000000FFFFFFFF#200
    = some (.err .illegalOperand) := by decide +kernel
theorem test_reset : crcAfter c32 (encode .reset) = some 0xFFFFFFFF := by decide +kernel
theorem test_update_reflected : crcAfter c32 (encode (.update 0x00)) = some 0xFF3B61B6 := by decide +kernel
theorem test_update_plain :
    crcAfter (stateAt (defaultPresets .crc16CcittFalse) 0xC782#16 []) (encode (.update 0x32)) = some 0x3DBA := by
  decide +kernel
theorem test_checksum : answer c32 (encode .checksum) = some (.ok 0xCBF43926#64) := by decide +kernel
theorem test_checksum_reversed :
    answer (stateAt ⟨.w16, 0x1021#16, 0x1D0F#16, 0x0001#16, true, false⟩ 0x5604#16 []) (encode .checksum)
      = some (.ok 0x206B#64) := by decide +kernel
theorem test_match_true : answer c8 (encode (.matchExpected 0xF4)) = some (.ok 1#64) := by decide +kernel
theorem test_match_over_wide : answer c8 (encode (.matchExpected 0x1F4)) = some (.err .illegalOperand) := by
  decide +kernel
theorem test_match_unconfigured : answer State.reset (encode (.matchExpected 0x1FF)) = some (.err .notConfigured) := by
  decide +kernel

/-! ### The datapath (R121, R129, spec/95 sections 1.1 and 3.7) -/

theorem test_rev_16 : rev 0x1234#16 = 0x2C48#16 := by decide +kernel
theorem test_rev_64 : rev 0x0123456789ABCDEF#64 = 0xF7B3D591E6A2C480#64 := by decide +kernel
theorem test_entry_plain_64 :
    (tableEntry (defaultPresets .crc64Ecma182) 0xFF).toNat = 0x9AFCE626CE85B507 := by decide +kernel
theorem test_entry_reflected_32 : (tableEntry (defaultPresets .crc32) 0xFF).toNat = 0x2D02EF8D := by decide +kernel

/-- The nine bytes "123456789". Checksums are evaluated through `Laws.crcOf_eq_fold_entries`, which computes only the
entries that are read. -/
def checkBytes : List Byte := [0x31, 0x32, 0x33, 0x34, 0x35, 0x36, 0x37, 0x38, 0x39]

theorem test_check_ccitt : (crcOf (defaultPresets .crc16CcittFalse) checkBytes).toNat = 0x29B1 := by
  rw [Laws.crcOf_eq_fold_entries]; decide +kernel
theorem test_check_crc32 : (crcOf (defaultPresets .crc32) checkBytes).toNat = 0xCBF43926 := by
  rw [Laws.crcOf_eq_fold_entries]; decide +kernel
theorem test_check_crc64 : (crcOf (defaultPresets .crc64Ecma182) checkBytes).toNat = 0x6C40DF5F0B497347 := by
  rw [Laws.crcOf_eq_fold_entries]; decide +kernel
/-- A non-palindromic initial value with unequal flags (spec/95 section 3.7). -/
theorem test_check_custom : (crcOf ⟨.w8, 0x1D#8, 0xC7#8, 0x55#8, true, false⟩ checkBytes).toNat = 0x24 := by
  rw [Laws.crcOf_eq_fold_entries]; decide +kernel

/-! ### Distinctness and reflection sensitivity (R172): tests, not laws (spec/95 sections 3.5 and 3.6) -/

/-- The checksums of 32 bytes of 0x00, of 0xFF and of 0xAA. -/
def buffers (cfg : Configuration) : List Nat :=
  [0x00, 0xFF, 0xAA].map fun b : Byte => (crcOf cfg (List.replicate 32 b)).toNat

/-- The checksums of a sequence with the flags (refin, refout) at (0,0), (0,1), (1,0) and (1,1), the rest of the
configuration held fixed. -/
def flagsVaried (cfg : Configuration) (bytes : List Byte) : List Nat :=
  [(false, false), (false, true), (true, false), (true, true)].map fun f =>
    (crcOf { cfg with reflectInput := f.1, reflectOutput := f.2 } bytes).toNat

theorem test_buffers_8 : [PresetName.crc8, .crc8Cdma2000, .crc8Wcdma].map (fun p => buffers (defaultPresets p)) =
    [[0x00, 0x09, 0xF3], [0xCA, 0xFC, 0xEE], [0x00, 0x6C, 0x48]] := by
  simp only [buffers, Laws.crcOf_eq_fold_entries]; decide +kernel
theorem test_buffers_16 : [PresetName.crc16, .crc16CcittFalse, .crc16Xmodem, .crc16Ibm, .crc16Modbus].map
      (fun p => buffers (defaultPresets p)) =
    [[0x0000, 0xA401, 0xC7FE], [0xF14C, 0x75F8, 0xF98B], [0x0000, 0x84B4, 0x08C7], [0x0000, 0xA401, 0xC7FE],
     [0x9401, 0x3000, 0x53FF]] := by
  simp only [buffers, Laws.crcOf_eq_fold_entries]; decide +kernel
theorem test_buffers_32 : [PresetName.crc32, .crc32Bzip2, .crc32Mpeg2, .crc32Posix, .crc32c].map
      (fun p => buffers (defaultPresets p)) =
    [[0x190A55AD, 0xFF6CAB0B, 0xA2B10169], [0xB5AA5098, 0xD0D536FF, 0xF3FFEB22],
     [0x4A55AF67, 0x2F2AC900, 0x0C0014DD], [0xFFFFFFFF, 0x9A809998, 0xB9AA4445],
     [0x8A9136AA, 0x62A8AB43, 0x3ABFDFE4]] := by
  simp only [buffers, Laws.crcOf_eq_fold_entries]; decide +kernel
theorem test_buffers_64 : [PresetName.crc64Xz, .crc64Ecma182].map (fun p => buffers (defaultPresets p)) =
    [[0xC95AF8617CD5330C, 0xE95DCE9EFAA09ACF, 0xF6A0DCCB8773FD8E],
     [0x0000000000000000, 0xC395AE61FF6CE004, 0x82E6CBBEAA48BFF8]] := by
  simp only [buffers, Laws.crcOf_eq_fold_entries]; decide +kernel
/-- Distinctness itself, for every default preset: the three checksums differ pairwise. -/
theorem test_buffers_distinct (p : PresetName) : (buffers (defaultPresets p)).Nodup := by
  simp only [buffers, Laws.crcOf_eq_fold_entries]
  cases p <;> decide +kernel
/-- It is no law: with polynomial 0 the three agree (spec/90 C5). -/
theorem test_buffers_zero_polynomial : buffers ⟨.w16, 0#16, 0x1234#16, 0#16, false, false⟩ = [0, 0, 0] := by
  simp only [buffers, Laws.crcOf_eq_fold_entries]; decide +kernel

/-- The four presets whose flags spec/95 section 3.6 varies. -/
def variedPresets : List PresetName := [.crc32, .crc16CcittFalse, .crc8, .crc64Ecma182]

theorem test_flags_varied : variedPresets.map (fun p => flagsVaried (defaultPresets p) checkBytes) =
    [[0xFC891918, 0x1898913F, 0x649C2FD3, 0xCBF43926], [0x29B1, 0x8D94, 0x89F6, 0x6F91], [0xF4, 0x2F, 0x04, 0x20],
     [0x6C40DF5F0B497347, 0xE2CE92D0FAFB0236, 0x51301E47277E39D4, 0x2B9C7EE4E2780C8A]] := by
  simp only [flagsVaried, Laws.crcOf_eq_fold_entries]; decide +kernel
/-- Sensitivity itself: the four checksums of each differ pairwise. -/
theorem test_flags_varied_distinct : ∀ p ∈ variedPresets, (flagsVaried (defaultPresets p) checkBytes).Nodup := by
  simp only [flagsVaried, Laws.crcOf_eq_fold_entries]; decide +kernel
/-- It is no law: on the empty input the four agree (R168), here at CRC-32. -/
theorem test_flags_varied_empty : flagsVaried (defaultPresets .crc32) [] = [0, 0, 0, 0] := by
  simp only [flagsVaried, Laws.crcOf_eq_fold_entries]; decide +kernel

/-! ### Written forms (R82, R84) -/

theorem test_digits_update : commandDigits (encode (.update 0x31)) = 3#4 :: (List.replicate 47 0#4 ++ [3#4, 1#4]) := by
  decide +kernel
theorem test_asm_new : asmLine (.new ⟨.w16, true, false, 0x1021#64, 0x1D0F#64, 0x1#64⟩)
    = "NEW w=16, poly=0x1021, init=0x1D0F, xorout=0x0001, refin=1, refout=0" := by decide +kernel
/-- The over-wide polynomial of spec/95 program P4, command 4, keeps all its digits. -/
theorem test_asm_new_over_wide : asmLine (.new ⟨.w16, true, true, 0x18005#64, 0#64, 0#64⟩)
    = "NEW w=16, poly=0x18005, init=0x0000, xorout=0x0000, refin=1, refout=1" := by decide +kernel
theorem test_asm_match : asmLine (.matchExpected 0xCBF43926#64) = "MATCH 0xCBF43926" := by decide +kernel

/-! ### Every row of the opcode table runs as the first command after reset -/

/-- The rows' words: `NEW` and `UPDATE` with operand 0, `MATCH` of 0. `NEW` answers 0; the others `NOT_CONFIGURED`. -/
theorem test_rows_from_reset :
    ([1, 2, 3, 4, 5].map fun op : Nat =>
      match step (State.reset.withFetchWord 200 (op * 2 ^ 196)) with
      | .next t => t.responses
      | _ => []) = [[.ok 0], [.err .notConfigured], [.err .notConfigured], [.err .notConfigured], [.err .notConfigured]] := by
  decide +kernel

/-! ### Witnesses: for every statement with hypotheses, concrete operands that meet them together -/

/-- A freshly constructed CRC-64/XZ engine. -/
def c64 : State := stateAt (defaultPresets .crc64Xz) 0xFFFFFFFFFFFFFFFF#64 []

theorem witness_DecodedWordIsTheCommandsWord :
    decode 0x500000000000000000000000000000000000000000CBF43926#200 = .ok (.matchExpected 0xCBF43926#64) := by
  decide +kernel

theorem witness_StepRunsTheDecodedCommand :
    (presentWord (encode (.update 0x31)) c8).inputs = .command (encode (.update 0x31)) :: [] ∧
      decode (encode (.update 0x31)) = .ok (.update 0x31) := ⟨rfl, by decide +kernel⟩

/-- Both clauses, the second at its two ends. -/
theorem witness_ReservedOpcodesAreRefused (op : BitVec 4) (h : op = 0x0#4 ∨ op = 0x6#4 ∨ op = 0xF#4) :
    let cw : CommandWord := op ++ 1#196
    (presentWord cw c8).inputs = .command cw :: [] ∧
      (cw.extractLsb' 196 4 = 0x0#4 ∨ 0x6#4 ≤ cw.extractLsb' 196 4) := by
  refine ⟨rfl, ?_⟩
  rcases h with rfl | rfl | rfl <;> decide +kernel

/-- The five clauses' premises on a word `cw` reaching `s`, as the statement ChecksHappenInOrder writes them. -/
def reservedOpcode (cw : CommandWord) : Prop := cw.extractLsb' 196 4 = 0x0#4 ∨ 0x6#4 ≤ cw.extractLsb' 196 4
def reservedBitsSet (cw : CommandWord) : Prop :=
  ((cw.extractLsb' 196 4 = 0x2#4 ∨ cw.extractLsb' 196 4 = 0x4#4) ∧ cw.extractLsb' 0 196 ≠ 0#196) ∨
    (cw.extractLsb' 196 4 = 0x3#4 ∧ cw.extractLsb' 8 188 ≠ 0#188) ∨
    (cw.extractLsb' 196 4 = 0x5#4 ∧ cw.extractLsb' 64 132 ≠ 0#132)
def needsConfiguration (s : State) (cw : CommandWord) : Prop :=
  cw.extractLsb' 196 4 ≠ 0x1#4 ∧ s.engine.configured = false
def overWide (s : State) (cw : CommandWord) : Prop :=
  (cw.extractLsb' 196 4 = 0x1#4 ∧ ∃ k : Nat, 8 <<< (cw.extractLsb' 194 2).toNat ≤ k ∧ k < 64 ∧
      (cw.getLsbD (128 + k) = true ∨ cw.getLsbD (64 + k) = true ∨ cw.getLsbD k = true)) ∨
    (cw.extractLsb' 196 4 = 0x5#4 ∧ ∃ k : Nat, s.engine.cfg.width.bits ≤ k ∧ k < 64 ∧ cw.getLsbD k = true)

/-- The statement's one hypothesis is met by every word placed at a port; the premises of its five clauses follow. -/
theorem witness_ChecksHappenInOrder (cw : CommandWord) : (presentWord cw c8).inputs = .command cw :: [] := rfl

theorem witness_ChecksHappenInOrder_opcode : reservedOpcode (0x6#4 ++ 0#196) := by
  unfold reservedOpcode; decide +kernel
/-- The lowest reserved bit of `UPDATE` and of `MATCH`, and bit 0 of `RESET`. -/
theorem witness_ChecksHappenInOrder_reserved :
    (¬ reservedOpcode (0x3#4 ++ 0x100#196) ∧ reservedBitsSet (0x3#4 ++ 0x100#196)) ∧
    (¬ reservedOpcode (0x5#4 ++ 0x10000000000000000#196) ∧ reservedBitsSet (0x5#4 ++ 0x10000000000000000#196)) ∧
    (¬ reservedOpcode (0x2#4 ++ 1#196) ∧ reservedBitsSet (0x2#4 ++ 1#196)) := by
  unfold reservedOpcode reservedBitsSet; decide +kernel
/-- `MATCH` of an operand too wide for width 8, sent before any `NEW`. -/
theorem witness_ChecksHappenInOrder_unconfigured : ¬ reservedOpcode (0x5#4 ++ 0x100#196) ∧
    ¬ reservedBitsSet (0x5#4 ++ 0x100#196) ∧ needsConfiguration State.reset (0x5#4 ++ 0x100#196) := by
  unfold reservedOpcode reservedBitsSet needsConfiguration; decide +kernel
/-- Bit `w` itself: of `MATCH`'s operand at width 8, and of `NEW`'s final XOR at width 32. -/
theorem witness_ChecksHappenInOrder_overWide :
    (¬ reservedOpcode (0x5#4 ++ 0x100#196) ∧ ¬ reservedBitsSet (0x5#4 ++ 0x100#196) ∧
      ¬ needsConfiguration c8 (0x5#4 ++ 0x100#196) ∧ overWide c8 (0x5#4 ++ 0x100#196)) ∧
    (let cw : CommandWord := 0x1B0000000004C11DB700000000FFFFFFFF0000000100000000#200
     ¬ reservedOpcode cw ∧ ¬ reservedBitsSet cw ∧ ¬ needsConfiguration State.reset cw ∧ overWide State.reset cw) := by
  refine ⟨⟨?_, ?_, ?_, .inr ⟨by decide +kernel, 8, by decide +kernel, by decide, by decide +kernel⟩⟩,
    ?_, ?_, ?_, .inl ⟨by decide +kernel, 32, by decide +kernel, by decide, by decide +kernel⟩⟩ <;>
  (simp only [reservedOpcode, reservedBitsSet, needsConfiguration]; decide +kernel)
/-- `MATCH 0xFF` at width 8: the widest operand that fits. -/
theorem witness_ChecksHappenInOrder_executes : ¬ reservedOpcode (0x5#4 ++ 0xFF#196) ∧
    ¬ reservedBitsSet (0x5#4 ++ 0xFF#196) ∧ ¬ needsConfiguration c8 (0x5#4 ++ 0xFF#196) ∧
    ¬ overWide c8 (0x5#4 ++ 0xFF#196) := by
  refine ⟨?_, ?_, ?_, ?_⟩
  · unfold reservedOpcode; decide +kernel
  · unfold reservedBitsSet; decide +kernel
  · unfold needsConfiguration; decide +kernel
  · have fitting : ∀ k < 64, 8 ≤ k → (0x5#4 ++ 0xFF#196 : CommandWord).getLsbD k = false := by decide +kernel
    rintro (⟨h, -⟩ | ⟨-, k, hk, hk', h⟩)
    · exact absurd h (by decide +kernel)
    · rw [fitting k hk' hk] at h; cases h

theorem witness_UnconfiguredEngineRefuses :
    State.reset.engine.configured = false ∧ ∀ c, Instr.matchExpected 0x1FF ≠ .new c := ⟨rfl, nofun⟩

theorem witness_ConfiguredEngineNeverAnswersNotConfigured : ∃ t,
    (presentWord 0#200 c8).engine.configured = true ∧ step (presentWord 0#200 c8) = .next t :=
  ⟨_, rfl, Laws.step_refused rfl test_decode_zero_word⟩

theorem witness_OneResponsePerCommand : ∃ t, (presentWord 0#200 c8).inputs = .command 0#200 :: [] ∧
    step (presentWord 0#200 c8) = .next t := ⟨_, rfl, Laws.step_refused rfl test_decode_zero_word⟩

/-- A command refused with each of the three causes. -/
theorem witness_RefusedCommandChangesNoState :
    (∃ t, (presentWord 0#200 c8).inputs = .command 0#200 :: [] ∧ step (presentWord 0#200 c8) = .next t ∧
      t.responses = .err .illegalOpcode :: c8.responses) ∧
    (∃ t, (presentWord (0x4#4 ++ 1#196) c8).inputs = .command (0x4#4 ++ 1#196) :: [] ∧
      step (presentWord (0x4#4 ++ 1#196) c8) = .next t ∧ t.responses = .err .illegalOperand :: c8.responses) ∧
    (∃ t, (presentWord (encode .checksum) State.reset).inputs = .command (encode .checksum) :: [] ∧
      step (presentWord (encode .checksum) State.reset) = .next t ∧
      t.responses = .err .notConfigured :: State.reset.responses) :=
  ⟨⟨_, rfl, Laws.step_refused rfl (by decide +kernel), rfl⟩,
   ⟨_, rfl, Laws.step_refused rfl (by decide +kernel), rfl⟩,
   ⟨_, rfl, (Laws.step_executes rfl (by decide +kernel : decode (encode .checksum) = .ok .checksum)).trans rfl, rfl⟩⟩

theorem witness_RefusedCommandLeavesNoTrace : ∃ t, (presentWord 0#200 c32).inputs = .command 0#200 :: [] ∧
    step (presentWord 0#200 c32) = .next t ∧ t.responses = .err .illegalOpcode :: (presentWord 0#200 c32).responses :=
  ⟨_, rfl, Laws.step_refused rfl (by decide +kernel), rfl⟩

/-- A constructed engine with a hardware reset at its port. -/
def resetting : State := { c8 with inputs := [.hardwareReset] }

theorem witness_HardwareResetUnconfigures : resetting.inputs = .hardwareReset :: [] := rfl

theorem witness_OnlyHardwareResetUnconfigures : ∃ t, resetting.engine.configured = true ∧ step resetting = .next t ∧
    t.engine.configured = false := ⟨_, rfl, Laws.step_hardwareReset rfl, rfl⟩

theorem witness_OnlyNewAndHardwareResetWriteTheConfiguration : ∃ t,
    step (presentWord (encode .reset) c8) = .next t ∧
    (∀ cw rest cfg, (presentWord (encode .reset) c8).inputs = .command cw :: rest → decode cw ≠ .ok (.new cfg)) ∧
    (∀ rest, (presentWord (encode .reset) c8).inputs ≠ .hardwareReset :: rest) := by
  have decodes : decode (encode .reset) = .ok .reset := by decide +kernel
  refine ⟨_, (Laws.step_executes rfl decodes).trans rfl, ?_, ?_⟩
  · intro cw rest cfg h
    obtain ⟨h, -⟩ := List.cons.inj h
    rw [← HostInput.command.inj h, decodes]
    nofun
  · intro rest h
    cases (List.cons.inj h).1

/-- Two unconfigured instances that hold different values, before the same `NEW`. -/
theorem witness_UnconfiguredContentsAreNeverObserved :
    let s₁ : State := { State.reset with inputs := asInputs [.checksum, .new (cfgPack (defaultPresets .crc32))] }
    let s₂ : State := { s₁ with engine := { c8.engine with configured := false } }
    s₁.engine.configured = false ∧ s₂.engine.configured = false ∧ s₁.inputs = s₂.inputs ∧
      s₁.responses = s₂.responses := ⟨rfl, rfl, rfl, rfl⟩

/-- A coherent engine and a step of it that does something. -/
theorem witness_EveryStepKeepsTheTableCoherent : ∃ t, (presentWord (encode .reset) c8).Coherent ∧
    step (presentWord (encode .reset) c8) = .next t :=
  ⟨_, fun _ => rfl, (Laws.step_executes rfl (by decide +kernel : decode (encode .reset) = .ok .reset)).trans rfl⟩

/-- The widest fields of width 8, and of width 64. -/
theorem witness_NewConstructsTheEngine :
    (∀ k, Width.w8.bits ≤ k → (0xFF#64).getLsbD k = false ∧ (0xFF#64).getLsbD k = false ∧
      (0xFF#64).getLsbD k = false) ∧
    (∀ k, Width.w64.bits ≤ k → (BitVec.allOnes 64).getLsbD k = false ∧ (BitVec.allOnes 64).getLsbD k = false ∧
      (BitVec.allOnes 64).getLsbD k = false) := by
  refine ⟨fun k hk => ?_, fun k hk => ?_⟩
  · have h : (0xFF#64).getLsbD k = false := by
      rw [show (0xFF#64) = (0xFF#8).setWidth 64 from by decide, BitVec.getLsbD_setWidth,
        show (0xFF#8).getLsbD k = false from BitVec.getLsbD_of_ge (w := 8) _ _ hk, Bool.and_false]
    exact ⟨h, h, h⟩
  · have h : (BitVec.allOnes 64).getLsbD k = false := BitVec.getLsbD_of_ge _ _ hk
    exact ⟨h, h, h⟩

/-- Bit `w` of each numeric field in turn, at widths 8, 16 and 32. -/
theorem witness_NewRefusesOverWideFields :
    (Width.w8.bits ≤ 8 ∧ (0x100#64).getLsbD 8 = true) ∧ (Width.w16.bits ≤ 16 ∧ (0x10000#64).getLsbD 16 = true) ∧
    (Width.w32.bits ≤ 32 ∧ (0x100000000#64).getLsbD 32 = true) := by decide

theorem witness_NewForgetsTheEarlierEngine :
    cfgFits (cfgPack (defaultPresets .crc64Xz)) = true ∧ cfgFits (cfgPack (defaultPresets .crc8Wcdma)) = true := by
  decide

theorem witness_EveryPresetConstructs (name : PresetName) :
    let s : State := { State.reset with inputs := asInputs (Macro.expand defaultPresets (.newPreset name)) ++ [] }
    s.inputs = asInputs (Macro.expand defaultPresets (.newPreset name)) ++ [] := rfl

theorem witness_ReflectionReversesTheBits : 7 < 8 ∧ (rev 0x80#8).getLsbD 0 = (0x80#8).getLsbD (8 - 1 - 0) := by decide

/-- The byte law (d) at its least width. -/
theorem witness_ReflectionLaws : 8 ≤ 8 ∧ lowByte (rev 0x34#8) = rev (topByte 0x34#8) := by decide

/-- The three conditional laws: a non-reflected, a reflected and a zero polynomial. -/
theorem witness_TableLaws : (defaultPresets .crc8).reflectInput = false ∧ (defaultPresets .crc32).reflectInput = true ∧
    (⟨.w16, 0#16, 0#16, 0#16, false, false⟩ : Configuration).polynomial = 0#_ := ⟨rfl, rfl, rfl⟩

theorem witness_ReflectedEntryIsTheReversedEntry : (defaultPresets .crc64Xz).reflectInput = true := rfl

/-- The highest index first. -/
theorem witness_TableWriteOrderIsFree :
    ∀ i : Byte, i ∈ ((List.finRange 256).map BitVec.ofFin).reverse := by
  intro i
  rw [List.mem_reverse, List.mem_map]
  exact ⟨i.toFin, List.mem_finRange _, rfl⟩

/-- For the statements whose only hypothesis on the engine is `CONFIGURED = 1`: UpdateFeedsOneByte,
ResetRestartsTheRegister and ChecksumRespondsTheFinalizedRegister. -/
theorem witness_UpdateFeedsOneByte : c8.engine.configured = true ∧ c8.engine.cfg.reflectInput = false ∧
    c32.engine.configured = true ∧ c32.engine.cfg.reflectInput = true := ⟨rfl, rfl, rfl, rfl⟩

theorem witness_ResetRestartsTheRegister : c32.engine.configured = true := rfl
theorem witness_ChecksumRespondsTheFinalizedRegister : c64.engine.configured = true := rfl

theorem witness_ResetEqualsReconstruction : c32.Coherent ∧ c32.engine.configured = true := ⟨fun _ => rfl, rfl⟩

theorem witness_EightBitStepIsOneLookup : (defaultPresets .crc8Wcdma).width = .w8 := rfl

theorem witness_StepIsPolynomialDivision : (defaultPresets .crc16CcittFalse).reflectInput = false := rfl

/-- The least number of bytes, at width 64. -/
theorem witness_ZeroPolynomialForgetsEverything :
    let cfg : Configuration := ⟨.w64, 0#64, 5#64, 7#64, true, false⟩
    cfg.polynomial = 0#_ ∧ cfg.width.bits / 8 ≤ [1#8, 2#8, 3#8, 4#8, 5#8, 6#8, 7#8, 8#8].length :=
  ⟨rfl, by decide⟩

/-- The widest operand at width 8, and any operand at width 64. -/
theorem witness_MatchComparesTheChecksum : c8.engine.configured = true ∧
    (∀ k, c8.engine.cfg.width.bits ≤ k → (0xFF#64).getLsbD k = false) ∧ c64.engine.configured = true ∧
    (∀ k, c64.engine.cfg.width.bits ≤ k → (BitVec.allOnes 64).getLsbD k = false) :=
  ⟨rfl, fun k hk => (witness_NewConstructsTheEngine.1 k hk).1, rfl, fun k hk => (witness_NewConstructsTheEngine.2 k hk).1⟩

theorem witness_MatchRefusesOverWideValues :
    c8.engine.configured = true ∧ c8.engine.cfg.width.bits ≤ 8 ∧ (0x100#64).getLsbD 8 = true :=
  ⟨rfl, by decide, by decide⟩

theorem witness_ResultsAreStable :
    let s : State := { c8 with inputs := asInputs ([.checksum, .matchExpected 0x100] ++ [.matchExpected 0xF4]) ++ [] }
    s.engine.configured = true ∧
    (∀ i ∈ [.matchExpected 0xF4, .checksum, .matchExpected 0x100], i = Instr.checksum ∨ ∃ e, i = .matchExpected e) ∧
    s.inputs = asInputs ([.checksum, .matchExpected 0x100] ++ [.matchExpected 0xF4]) ++ [] := by
  refine ⟨rfl, fun i hi => ?_, rfl⟩
  simp only [List.mem_cons, List.not_mem_nil, or_false] at hi
  rcases hi with rfl | rfl | rfl
  · exact .inr ⟨_, rfl⟩
  · exact .inl rfl
  · exact .inr ⟨_, rfl⟩

theorem witness_ChecksumsFitTheWidth : ∃ t v, exec .checksum c32 = .next t ∧ t.responses = .ok v :: c32.responses :=
  ⟨_, _, rfl, rfl⟩

theorem witness_ResultsIgnoreTableAndPolynomial : ∃ i, i = Instr.checksum ∨ ∃ e, i = .matchExpected e :=
  ⟨.matchExpected 0xF4, .inr ⟨_, rfl⟩⟩

/-- A coherent constructed engine with a macro-command and one more command at its port: for UpdateSeqFoldsTheBytes,
ComputeRespondsTheCrc and VerifyComparesTheCrc. -/
def given (s : State) (m : Macro) : State :=
  { s with inputs := asInputs (Macro.expand defaultPresets m) ++ asInputs [.checksum] }

theorem witness_UpdateSeqFoldsTheBytes : (given c8 (.updateSeq checkBytes)).engine.configured = true ∧
    (given c8 (.updateSeq checkBytes)).inputs
      = asInputs (Macro.expand defaultPresets (.updateSeq checkBytes)) ++ asInputs [.checksum] := ⟨rfl, rfl⟩

theorem witness_ComputeRespondsTheCrc : (given c32 (.compute checkBytes)).Coherent ∧
    (given c32 (.compute checkBytes)).engine.configured = true ∧
    (given c32 (.compute checkBytes)).inputs
      = asInputs (Macro.expand defaultPresets (.compute checkBytes)) ++ asInputs [.checksum] :=
  ⟨fun _ => rfl, rfl, rfl⟩

theorem witness_VerifyComparesTheCrc : (given c8 (.verify checkBytes 0xFF)).Coherent ∧
    (given c8 (.verify checkBytes 0xFF)).engine.configured = true ∧
    (∀ k, (given c8 (.verify checkBytes 0xFF)).engine.cfg.width.bits ≤ k → (0xFF#64).getLsbD k = false) ∧
    (given c8 (.verify checkBytes 0xFF)).inputs
      = asInputs (Macro.expand defaultPresets (.verify checkBytes 0xFF)) ++ asInputs [.checksum] :=
  ⟨fun _ => rfl, rfl, fun k hk => (witness_NewConstructsTheEngine.1 k hk).1, rfl⟩

/-- Each clause: the sequence's own checksum, and that checksum plus 1, here both at width 64. -/
theorem witness_VerifyIsCorrect (e : (defaultPresets .crc64Xz).Reg) : let s := given c64 (.verify checkBytes (zext64 e))
    s.Coherent ∧ s.engine.configured = true ∧
    s.inputs = asInputs (Macro.expand defaultPresets (.verify checkBytes (zext64 e))) ++ asInputs [.checksum] :=
  ⟨fun _ => rfl, rfl, rfl⟩

theorem witness_IncrementalEqualsOneShot :
    let body : List Instr := [.update 0x31, .checksum, .update 0x32, .matchExpected 0x1FF]
    let s : State := { c8 with inputs := asInputs (.reset :: (body ++ [.checksum])) ++ [.hardwareReset] }
    s.Coherent ∧ s.engine.configured = true ∧ (∀ i ∈ body, i ≠ .reset ∧ ∀ c, i ≠ .new c) ∧
      s.inputs = asInputs (.reset :: (body ++ [.checksum])) ++ [.hardwareReset] := by
  refine ⟨fun _ => rfl, rfl, fun i hi => ?_, rfl⟩
  simp only [List.mem_cons, List.not_mem_nil, or_false] at hi
  rcases hi with rfl | rfl | rfl | rfl <;> exact ⟨nofun, nofun⟩

/-- Each way to the empty input: after `NEW` from reset, and after `RESET` of a constructed engine. -/
theorem witness_EmptyInputChecksum :
    let s₁ : State := { State.reset with inputs := asInputs [.new (cfgPack (defaultPresets .crc32)), .checksum] ++ [] }
    let s₂ : State := { c32 with inputs := asInputs [.reset, .checksum] ++ [] }
    s₁.inputs = asInputs [.new (cfgPack (defaultPresets .crc32)), .checksum] ++ [] ∧
    s₂.engine.configured = true ∧ s₂.engine.cfg = defaultPresets .crc32 ∧
      s₂.inputs = asInputs [.reset, .checksum] ++ [] := ⟨rfl, rfl, rfl, rfl⟩

theorem witness_OneShotRespondsThePresetsCrc : (given State.reset (.oneShot .crc32c checkBytes)).inputs
    = asInputs (Macro.expand defaultPresets (.oneShot .crc32c checkBytes)) ++ asInputs [.checksum] := rfl

theorem witness_InstancesDoNotInteract : (0 : Fin 2) ≠ 1 := by decide

end Sys2Proof.Tests
end

section
/-! Reasoning rules about the state: what each command answers on an unconfigured and on a configured engine, what a
step can do to the engine, and the invariants of the life of an engine that follow. -/

namespace Sys2Proof.Proofs

open Sys2Proof.Machine Sys2Proof.Laws

/-! ### The answer of each command -/

/-- R184 at the level of `exec`: an unconfigured engine refuses everything but `NEW`. -/
theorem exec_of_unconfigured {i : Instr} {s : State} (h : s.engine.configured = false) (notNew : ∀ c, i ≠ .new c) :
    exec i s = .next (raise .notConfigured s) := by
  cases i with
  | new c => exact absurd rfl (notNew c)
  | reset => exact congrArg Host.Outcome.next (whenConfigured_false h _)
  | update b => exact congrArg Host.Outcome.next (whenConfigured_false h _)
  | checksum => exact congrArg Host.Outcome.next (whenConfigured_false h _)
  | matchExpected e => exact congrArg Host.Outcome.next (whenConfigured_false h _)

theorem exec_new_of_fits {c : CfgObj} (h : cfgFits c = true) (s : State) :
    exec (.new c) s = .next (respond 0 (construct (cfgLatch c) s)) :=
  congrArg Host.Outcome.next (if_pos h)

theorem exec_new_of_not_fits {c : CfgObj} (h : ¬ cfgFits c = true) (s : State) :
    exec (.new c) s = .next (raise .illegalOperand s) :=
  congrArg Host.Outcome.next (if_neg h)

theorem exec_reset {s : State} (h : s.engine.configured = true) :
    exec .reset s = .next (respond 0 (writeCrc s s.engine.cfg.initialValue)) :=
  congrArg Host.Outcome.next (whenConfigured_true h _)

theorem exec_update {s : State} (h : s.engine.configured = true) (b : Byte) :
    exec (.update b) s = .next (respond 0 (writeCrc s (crcStep s.engine.cfg s.engine.table s.engine.crc b))) :=
  congrArg Host.Outcome.next (whenConfigured_true h _)

theorem exec_checksum {s : State} (h : s.engine.configured = true) :
    exec .checksum s = .next (respond (zext64 (finalize s.engine.cfg s.engine.crc)) s) :=
  congrArg Host.Outcome.next (whenConfigured_true h _)

theorem exec_match_of_fits {s : State} {e : Word} (h : s.engine.configured = true)
    (f : fits s.engine.cfg.width.bits e = true) :
    exec (.matchExpected e) s
      = .next (respond (matchBit (finalize s.engine.cfg s.engine.crc) (operand _ e)) s) :=
  congrArg Host.Outcome.next ((whenConfigured_true h _).trans (if_pos f))

theorem exec_match_of_not_fits {s : State} {e : Word} (h : s.engine.configured = true)
    (f : ¬ fits s.engine.cfg.width.bits e = true) :
    exec (.matchExpected e) s = .next (raise .illegalOperand s) :=
  congrArg Host.Outcome.next ((whenConfigured_true h _).trans (if_neg f))

/-! ### Stepping is total -/

theorem exec_next (i : Instr) (s : State) : ∃ t, exec i s = .next t := by
  obtain ⟨c, -, e⟩ | ⟨c, -, -, e⟩ | ⟨-, v, e⟩ | ⟨-, v, e⟩ := exec_cases i s <;> exact ⟨_, e⟩

theorem step_next (s : State) : ∃ t, step s = .next t := by
  cases hi : s.inputs with
  | nil => exact ⟨_, step_idle hi⟩
  | cons x rest =>
    cases x with
    | hardwareReset => exact ⟨_, step_hardwareReset hi⟩
    | command cw =>
      cases d : decode cw with
      | error c => exact ⟨_, step_refused hi d⟩
      | ok i => rw [step_executes hi d]; exact exec_next i _

/-! ### What a step does to the engine -/

/-- What a command can do to the engine: nothing; construct (`NEW`); or write `CRC` once configured. -/
theorem exec_engine_cases {i : Instr} {s t : State} (h : exec i s = .next t) :
    t.engine = s.engine ∨
    (∃ c, i = .new c ∧ t.engine = (construct (cfgLatch c) s).engine) ∨
    (s.engine.configured = true ∧ ∃ v, t.engine = { s.engine with crc := v }) := by
  obtain ⟨c, -, e⟩ | ⟨c, hi, -, e⟩ | ⟨hc, v, e⟩ | ⟨-, v, e⟩ := exec_cases i s <;> cases e.symm.trans h
  · exact .inl rfl
  · exact .inr (.inl ⟨c, hi, rfl⟩)
  · exact .inr (.inr ⟨hc, v, rfl⟩)
  · exact .inl rfl

/-- What a step can do to the engine: nothing; hardware reset; construct (`NEW`); or write `CRC` once configured. -/
theorem step_engine_cases {s t : State} (h : step s = .next t) :
    t.engine = s.engine ∨
    (∃ rest, s.inputs = .hardwareReset :: rest ∧ t.engine = Engine.reset) ∨
    (∃ cw rest c, s.inputs = .command cw :: rest ∧ decode cw = .ok (.new c) ∧
      t.engine = (construct (cfgLatch c) s).engine) ∨
    (s.engine.configured = true ∧ ∃ v, t.engine = { s.engine with crc := v }) := by
  obtain ⟨-, rfl⟩ | ⟨rest, hi, rfl⟩ | ⟨cw, rest, c, -, -, rfl⟩ | ⟨cw, rest, i, hi, d, e⟩ := step_cases h
  · exact .inl rfl
  · exact .inr (.inl ⟨rest, hi, rfl⟩)
  · exact .inl rfl
  · obtain same | ⟨c, rfl, new⟩ | ⟨hc, v, wrote⟩ := exec_engine_cases e
    · exact .inl same
    · exact .inr (.inr (.inl ⟨cw, rest, c, hi, d, new⟩))
    · exact .inr (.inr (.inr ⟨hc, v, wrote⟩))

/-! ### Invariants of the life of an engine -/

/-- Settles O19, by what a step can do to the engine: `NEW` writes the table of the configuration it latches, hardware
reset clears `CONFIGURED`, and nothing else writes either. -/
theorem everyStepKeepsTheTableCoherent : Obligations.EveryStepKeepsTheTableCoherent := by
  intro s t coherent h
  unfold State.Coherent at coherent ⊢
  obtain e | ⟨rest, -, e⟩ | ⟨cw, rest, c, -, -, e⟩ | ⟨-, v, e⟩ := step_engine_cases h <;> rw [e]
  · exact coherent
  · intro configured; cases configured
  · exact fun _ => construct_table _ s
  · exact coherent

/-- Settles O20: coherence asks nothing of an unconfigured engine. -/
theorem resetIsCoherent : Obligations.ResetIsCoherent :=
  ⟨reset_configured, fun configured => absurd configured (by simp)⟩

/-- Settles O16, by what a step can do to the engine. -/
theorem onlyHardwareResetUnconfigures : Obligations.OnlyHardwareResetUnconfigures := by
  intro s t configured h unconfigured
  obtain e | ⟨rest, hi, -⟩ | ⟨cw, rest, c, -, -, e⟩ | ⟨-, v, e⟩ := step_engine_cases h
  · simp [e, configured] at unconfigured
  · exact ⟨rest, hi⟩
  · simp [e] at unconfigured
  · simp [e, configured] at unconfigured

/-- Settles O17, by what a step can do to the engine. -/
theorem onlyNewAndHardwareResetWriteTheConfiguration : Obligations.OnlyNewAndHardwareResetWriteTheConfiguration := by
  intro s t h notNew notReset
  obtain e | ⟨rest, hi, -⟩ | ⟨cw, rest, c, hi, d, -⟩ | ⟨-, v, e⟩ := step_engine_cases h
  · exact ⟨s.engine.crc, e⟩
  · exact absurd hi (notReset rest)
  · exact absurd d (notNew cw rest c hi)
  · exact ⟨v, e⟩

/-- Settles O15: hardware reset at the head of the port only replaces the engine. -/
theorem hardwareResetUnconfigures : Obligations.HardwareResetUnconfigures :=
  fun _ _ h => ⟨_, step_hardwareReset h, reset_configured, rfl, rfl⟩

/-- Settles O9: the `CONFIGURED` check refuses every command but `NEW`. -/
theorem unconfiguredEngineRefuses : Obligations.UnconfiguredEngineRefuses :=
  fun _ _ unconfigured notNew => exec_of_unconfigured unconfigured notNew

/-- Settles O37: past the `CONFIGURED` check `RESET` is one write of `CRC`. -/
theorem resetRestartsTheRegister : Obligations.ResetRestartsTheRegister :=
  fun _ configured => exec_reset configured

/-! ### Unconfigured contents are not observed -/

/-- Two states that no command can tell apart: the same port and the same `CONFIGURED`, and, once configured, the
same engine. -/
structure Indistinguishable (s₁ s₂ : State) : Prop where
  inputs : s₁.inputs = s₂.inputs
  responses : s₁.responses = s₂.responses
  configured : s₁.engine.configured = s₂.engine.configured
  engine : s₁.engine.configured = true → s₁.engine = s₂.engine

theorem Indistinguishable.refl (s : State) : Indistinguishable s s := ⟨rfl, rfl, rfl, fun _ => rfl⟩

theorem Indistinguishable.eq_of_configured {s₁ s₂ : State} (h : Indistinguishable s₁ s₂)
    (configured : s₁.engine.configured = true) : s₁ = s₂ := by
  obtain ⟨e₁, i₁, r₁⟩ := s₁
  obtain ⟨inputs, responses, -, engine⟩ := h
  cases engine configured
  cases inputs
  cases responses
  rfl

theorem Indistinguishable.withInputs {s₁ s₂ : State} (h : Indistinguishable s₁ s₂) (rest : List HostInput) :
    Indistinguishable { s₁ with inputs := rest } { s₂ with inputs := rest } :=
  ⟨rfl, h.responses, h.configured, h.engine⟩

theorem Indistinguishable.raise {s₁ s₂ : State} (h : Indistinguishable s₁ s₂) (c : Cause) :
    Indistinguishable (raise c s₁) (raise c s₂) :=
  ⟨h.inputs, congrArg (Response.err c :: ·) h.responses, h.configured, h.engine⟩

theorem Indistinguishable.respond_construct {s₁ s₂ : State} (h : Indistinguishable s₁ s₂) (v : Word)
    (cfg : Configuration) : Indistinguishable (respond v (construct cfg s₁)) (respond v (construct cfg s₂)) :=
  ⟨h.inputs, congrArg (Response.ok v :: ·) h.responses, rfl, fun _ => rfl⟩

theorem Indistinguishable.hardwareReset {s₁ s₂ : State} (h : Indistinguishable s₁ s₂) :
    Indistinguishable (hardwareReset s₁) (hardwareReset s₂) :=
  ⟨h.inputs, h.responses, rfl, fun _ => rfl⟩

theorem exec_indistinguishable {s₁ s₂ : State} (h : Indistinguishable s₁ s₂) (i : Instr) :
    ∃ t₁ t₂, exec i s₁ = .next t₁ ∧ exec i s₂ = .next t₂ ∧ Indistinguishable t₁ t₂ := by
  cases hc : s₁.engine.configured with
  | true =>
    cases h.eq_of_configured hc
    obtain ⟨t, ht⟩ := exec_next i s₁
    exact ⟨t, t, ht, ht, .refl t⟩
  | false =>
    by_cases new : ∃ c, i = .new c
    · obtain ⟨c, rfl⟩ := new
      by_cases f : cfgFits c = true
      · exact ⟨_, _, exec_new_of_fits f s₁, exec_new_of_fits f s₂, h.respond_construct 0 _⟩
      · exact ⟨_, _, exec_new_of_not_fits f s₁, exec_new_of_not_fits f s₂, h.raise _⟩
    · have notNew : ∀ c, i ≠ .new c := fun c e => new ⟨c, e⟩
      exact ⟨_, _, exec_of_unconfigured hc notNew, exec_of_unconfigured (h.configured ▸ hc) notNew, h.raise _⟩

theorem step_indistinguishable {s₁ s₂ : State} (h : Indistinguishable s₁ s₂) :
    ∃ t₁ t₂, step s₁ = .next t₁ ∧ step s₂ = .next t₂ ∧ Indistinguishable t₁ t₂ := by
  cases h₁ : s₁.inputs with
  | nil => exact ⟨s₁, s₂, step_idle h₁, step_idle (h.inputs ▸ h₁), h⟩
  | cons x rest =>
    have h₂ : s₂.inputs = x :: rest := h.inputs ▸ h₁
    cases x with
    | hardwareReset => exact ⟨_, _, step_hardwareReset h₁, step_hardwareReset h₂, (h.withInputs rest).hardwareReset⟩
    | command cw =>
      cases d : decode cw with
      | error c => exact ⟨_, _, step_refused h₁ d, step_refused h₂ d, (h.withInputs rest).raise c⟩
      | ok i =>
        rw [step_executes h₁ d, step_executes h₂ d]
        exact exec_indistinguishable (h.withInputs rest) i

theorem run_indistinguishable (k : Nat) {s₁ s₂ : State} (h : Indistinguishable s₁ s₂) :
    ∃ t₁ t₂, run k s₁ = .next t₁ ∧ run k s₂ = .next t₂ ∧ Indistinguishable t₁ t₂ := by
  induction k generalizing s₁ s₂ with
  | zero => exact ⟨s₁, s₂, rfl, rfl, h⟩
  | succ k ih =>
    obtain ⟨u₁, u₂, e₁, e₂, hu⟩ := step_indistinguishable h
    rw [run_succ k e₁, run_succ k e₂]
    exact ih hu

/-- Settles O18: indistinguishability is kept by every step, by induction over the run. -/
theorem unconfiguredContentsAreNeverObserved : Obligations.UnconfiguredContentsAreNeverObserved := by
  intro k s₁ s₂ u₁ u₂ inputs responses
  have start : Indistinguishable s₁ s₂ :=
    ⟨inputs, responses, u₁.trans u₂.symm, fun configured => absurd (u₁.symm.trans configured) (by decide)⟩
  obtain ⟨t₁, t₂, e₁, e₂, h⟩ := run_indistinguishable k start
  exact ⟨t₁, t₂, e₁, e₂, h.inputs, h.responses, h.configured, h.engine⟩

/-! ### RESET and reconstruction -/

theorem fits_zext64 {w : Nat} (v : BitVec w) : fits w (zext64 v) = true := by
  have shifted : zext64 v >>> w = 0#64 := by
    ext i hi
    simp [zext64]
  simp [fits, shifted]

theorem operand_zext64 {w : Nat} (h : w ≤ 64) (v : BitVec w) : operand w (zext64 v) = v := by
  rw [operand, zext64, BitVec.setWidth_setWidth_of_le _ h, BitVec.setWidth_eq]

/-- Every configuration can be packed for `NEW` (R103). -/
theorem cfgFits_cfgPack (cfg : Configuration) : cfgFits (cfgPack cfg) = true := by
  simp only [cfgFits, cfgPack, fits_zext64, Bool.and_self]

theorem cfgLatch_cfgPack (cfg : Configuration) : cfgLatch (cfgPack cfg) = cfg := by
  simp only [cfgLatch, cfgPack, operand_zext64 (bits_le_64 cfg.width)]

theorem exec_new_cfgPack (cfg : Configuration) (s : State) :
    exec (.new (cfgPack cfg)) s = .next (respond 0 (construct cfg s)) := by
  rw [exec_new_of_fits (cfgFits_cfgPack cfg), cfgLatch_cfgPack]

/-- On a coherent configured engine the only write of `construct` that changes anything is that of `CRC`. -/
theorem construct_own_cfg {s : State} (coherent : s.Coherent) (configured : s.engine.configured = true) :
    construct s.engine.cfg s = writeCrc s s.engine.cfg.initialValue := by
  rw [construct, writeCrc, ← coherent configured, ← configured]

/-- Settles O38: `NEW` with the packed configuration latches that configuration, and a coherent engine already holds its
table. -/
theorem resetEqualsReconstruction : Obligations.ResetEqualsReconstruction := by
  intro s coherent configured
  rw [exec_reset configured, exec_new_cfgPack, construct_own_cfg coherent configured]

/-! ### What the results read -/

/-- Settles O44: `CHECKSUM` and `MATCH` read `CONFIGURED`, `CRC` and what `finalize` reads of `CFG`, all of which the
replacement leaves. -/
theorem resultsIgnoreTableAndPolynomial : Obligations.ResultsIgnoreTableAndPolynomial := by
  intro s i t poly init isResult
  have notNew : ∀ c, i ≠ .new c := by
    obtain rfl | ⟨e, rfl⟩ := isResult <;> nofun
  cases hc : s.engine.configured with
  | false => exact ⟨_, _, exec_of_unconfigured hc notNew, exec_of_unconfigured hc notNew, rfl⟩
  | true =>
    obtain rfl | ⟨e, rfl⟩ := isResult
    · exact ⟨_, _, exec_checksum hc, exec_checksum hc, rfl⟩
    · by_cases f : fits s.engine.cfg.width.bits e = true
      · exact ⟨_, _, exec_match_of_fits hc f, exec_match_of_fits hc f, rfl⟩
      · exact ⟨_, _, exec_match_of_not_fits hc f, exec_match_of_not_fits hc f, rfl⟩

/-! ### Several engines side by side -/

theorem stepAt_of_step {n : Nat} {k : Fin n} {sys : System n} {t : State} (h : step sys.engines[k] = .next t) :
    System.stepAt k sys = .next { engines := sys.engines.set k t } := by
  simp only [System.stepAt, h]

theorem engines_set_other {n : Nat} (sys : System n) {j m : Fin n} (h : m ≠ j) (t : State) :
    (sys.engines.set j t)[m] = sys.engines[m] :=
  Vector.getElem_set_ne j.isLt m.isLt fun e => h (Fin.ext e.symm)

/-- Settles O53: a step reads and writes one place of the vector of instances, and writes at two places commute. -/
theorem instancesDoNotInteract : Obligations.InstancesDoNotInteract := by
  intro n j k sys different
  obtain ⟨t, ht⟩ := step_next sys.engines[j]
  obtain ⟨u, hu⟩ := step_next sys.engines[k]
  have stepK : step (sys.engines.set j t)[k] = .next u := by rw [engines_set_other sys different.symm, hu]
  have stepJ : step (sys.engines.set k u)[j] = .next t := by rw [engines_set_other sys different, ht]
  have commute : (sys.engines.set k u).set j t = (sys.engines.set j t).set k u :=
    Vector.set_comm u t fun e => different (Fin.ext e.symm)
  exact ⟨_, _, _, stepAt_of_step ht, stepAt_of_step hu, fun m hm => engines_set_other sys hm t,
    stepAt_of_step stepK, (stepAt_of_step (sys := ⟨sys.engines.set k u⟩) stepJ).trans (by rw [commute])⟩

end Sys2Proof.Proofs
end

section
/-! The byte step: the formula of each path, parallel feedback of the non-reflected step, and its reading as
polynomial division over GF(2). -/

namespace Sys2Proof.Proofs

open Sys2Proof.Machine Sys2Proof.Laws

/-! ### Path selection -/

/-- At width 8 nothing of the shifted register is left (R142). -/
theorem stepMsb_width8 (t : Table 8) (reg : BitVec 8) (b : Byte) :
    stepMsb t reg b = tblRead t (lowByte reg ^^^ b) := by
  rw [stepMsb, BitVec.shiftLeft_eq_zero (Nat.le_refl 8), BitVec.zero_xor]
  rfl

theorem stepLsb_width8 (t : Table 8) (reg : BitVec 8) (b : Byte) :
    stepLsb t reg b = tblRead t (lowByte reg ^^^ b) := by
  rw [stepLsb, BitVec.ushiftRight_eq_zero (Nat.le_refl 8), BitVec.zero_xor]

/-- Settles O32: at width 8 the shifted term vanishes; the other formulas are those of R140 and R141. -/
theorem pathSelectionComputesTheStep : Obligations.PathSelectionComputesTheStep := by
  rintro ⟨width, poly, init, xorout, reflectInput, reflectOutput⟩ t reg b
  cases width with
  | w8 =>
    cases reflectInput
    · exact (stepMsb_width8 t reg b).symm
    · exact (stepLsb_width8 t reg b).symm
  | w16 => cases reflectInput <;> rfl
  | w32 => cases reflectInput <;> rfl
  | w64 => cases reflectInput <;> rfl

/-! ### Parallel feedback, non-reflected (R144) -/

theorem divMsb_eq_shift_xor_entry {w : Nat} (h : 8 ≤ w) (p reg : BitVec w) :
    divMsb p reg = (reg <<< 8) ^^^ divMsb p (byteAtTop w (topByte reg)) := by
  have topCleared : topByte (reg ^^^ byteAtTop w (topByte reg)) = 0#8 := by
    rw [topByte_xor, topByte_byteAtTop h, BitVec.xor_self]
  calc divMsb p reg
      = divMsb p ((reg ^^^ byteAtTop w (topByte reg)) ^^^ byteAtTop w (topByte reg)) := by
        rw [BitVec.xor_assoc, BitVec.xor_self, BitVec.xor_zero]
    _ = ((reg ^^^ byteAtTop w (topByte reg)) <<< 8) ^^^ divMsb p (byteAtTop w (topByte reg)) := by
        rw [divMsb_xor, divMsb_shift h p _ topCleared]
    _ = (reg <<< 8) ^^^ divMsb p (byteAtTop w (topByte reg)) := by
        rw [BitVec.shiftLeft_xor_distrib, byteAtTop_shiftLeft h, BitVec.xor_zero]

/-- With the generated table one non-reflected step is eight division steps. -/
theorem crcStep_eq_divMsb {cfg : Configuration} (plain : cfg.reflectInput = false) (reg : cfg.Reg) (b : Byte) :
    crcStep cfg (tablegen cfg) reg b = divMsb cfg.polynomial (reg ^^^ byteAtTop _ b) := by
  have wide := eight_le_bits cfg.width
  rw [divMsb_eq_shift_xor_entry wide, crcStep_tablegen, plain, if_neg Bool.false_ne_true, tableEntry_msb plain,
    topByte_xor, topByte_byteAtTop wide, BitVec.shiftLeft_xor_distrib, byteAtTop_shiftLeft wide, BitVec.xor_zero]

/-! ### Registers as polynomials over GF(2) -/

open Polynomial

/-- The polynomial whose coefficient of `x^i` is bit `i` of `v`. -/
noncomputable def gfPoly {n : Nat} (v : BitVec n) : (ZMod 2)[X] :=
  ∑ i ∈ Finset.range n, if v.getLsbD i = true then X ^ i else 0

theorem coeff_gfPoly {n : Nat} (v : BitVec n) (k : Nat) :
    (gfPoly v).coeff k = if v.getLsbD k = true then 1 else 0 := by
  have term (i : Nat) : (if v.getLsbD i = true then X ^ i else 0 : (ZMod 2)[X]).coeff k
      = if i = k then (if v.getLsbD k = true then 1 else 0) else 0 := by
    by_cases e : i = k
    · subst e
      cases v.getLsbD i <;> simp
    · cases v.getLsbD i <;> simp [coeff_X_pow, e, Ne.symm e]
  rw [gfPoly, finsetSum_coeff, Finset.sum_congr rfl fun i _ => term i, Finset.sum_ite_eq']
  by_cases hk : k < n
  · simp [hk]
  · simp [hk, BitVec.getLsbD_of_ge v k (Nat.le_of_not_lt hk)]

theorem gfPoly_xor {n : Nat} (a b : BitVec n) : gfPoly (a ^^^ b) = gfPoly a + gfPoly b := by
  ext k
  rw [coeff_add, coeff_gfPoly, coeff_gfPoly, coeff_gfPoly, BitVec.getLsbD_xor]
  cases a.getLsbD k <;> cases b.getLsbD k <;> decide

/-- A shift by one multiplies by `x`, but for the term that leaves the register. -/
theorem gfPoly_shiftLeft_one {w : Nat} (r : BitVec w) :
    gfPoly (r <<< 1) = X * gfPoly r + if r.getLsbD (w - 1) = true then X ^ w else 0 := by
  ext k
  rw [coeff_add, coeff_gfPoly, BitVec.getLsbD_shiftLeft]
  have leaving : (if r.getLsbD (w - 1) = true then X ^ w else 0 : (ZMod 2)[X]).coeff k
      = if k = w ∧ r.getLsbD (w - 1) = true then 1 else 0 := by
    cases r.getLsbD (w - 1) <;> simp [coeff_X_pow]
  rw [leaving]
  cases k with
  | zero =>
    by_cases hw : 0 = w
    · subst hw; simp [BitVec.getLsbD_of_ge]
    · simp [hw]
  | succ k =>
    rw [coeff_X_mul, coeff_gfPoly, Nat.add_sub_cancel]
    rcases Nat.lt_trichotomy (k + 1) w with below | at_top | above
    · simp [below, Nat.ne_of_lt below]
    · subst at_top
      simp only [Nat.add_sub_cancel]
      cases r.getLsbD k <;> simp [CharTwo.add_self_eq_zero]
    · simp [BitVec.getLsbD_of_ge r k (by omega), Nat.ne_of_gt above]

theorem gfPoly_byteAtTop {w : Nat} (h : 8 ≤ w) (b : Byte) : gfPoly (byteAtTop w b) = X ^ (w - 8) * gfPoly b := by
  ext k
  rw [coeff_gfPoly, coeff_X_pow_mul', coeff_gfPoly, byteAtTop, BitVec.getLsbD_shiftLeft, BitVec.getLsbD_setWidth]
  by_cases low : k < w - 8
  · simp [low, Nat.not_le_of_lt low]
  · rw [if_pos (Nat.le_of_not_lt low)]
    by_cases inside : k < w
    · simp [low, inside, show k - (w - 8) < w by omega]
    · simp [inside, BitVec.getLsbD_of_ge b (k - (w - 8)) (by omega)]

/-- One division step multiplies by `x` and, when a term leaves the register, adds the generator. -/
theorem gfPoly_divStepMsb {w : Nat} (p r : BitVec w) :
    gfPoly (divStepMsb p r) = X * gfPoly r + if r.getLsbD (w - 1) = true then X ^ w + gfPoly p else 0 := by
  rw [divStepMsb]
  split
  next top => rw [gfPoly_xor, gfPoly_shiftLeft_one, if_pos top, add_assoc]
  next top => rw [gfPoly_shiftLeft_one, if_neg top]

theorem generator_dvd_divStepMsb_sub {w : Nat} (p r : BitVec w) :
    X ^ w + gfPoly p ∣ gfPoly (divStepMsb p r) - X * gfPoly r := by
  rw [gfPoly_divStepMsb, add_sub_cancel_left]
  split
  · exact dvd_rfl
  · exact dvd_zero _

theorem generator_dvd_iterate_divStepMsb_sub {w : Nat} (p r : BitVec w) (k : Nat) :
    X ^ w + gfPoly p ∣ gfPoly ((divStepMsb p)^[k] r) - X ^ k * gfPoly r := by
  induction k with
  | zero => simp
  | succ k ih =>
    have telescope : gfPoly ((divStepMsb p)^[k + 1] r) - X ^ (k + 1) * gfPoly r
        = (gfPoly (divStepMsb p ((divStepMsb p)^[k] r)) - X * gfPoly ((divStepMsb p)^[k] r))
          + X * (gfPoly ((divStepMsb p)^[k] r) - X ^ k * gfPoly r) := by
      rw [Function.iterate_succ_apply']; ring
    rw [telescope]
    exact dvd_add (generator_dvd_divStepMsb_sub p _) (ih.mul_left X)

/-- Settles O34: the step is eight division steps (parallel feedback), each a multiplication by `x` modulo the
generator, and the byte enters as `x^(w-8) b`. -/
theorem stepIsPolynomialDivision : Obligations.StepIsPolynomialDivision := by
  intro cfg reg b plain
  change X ^ cfg.width.bits + gfPoly cfg.polynomial ∣
    gfPoly (crcStep cfg (tablegen cfg) reg b) - (X ^ 8 * gfPoly reg + X ^ cfg.width.bits * gfPoly b)
  have wide := eight_le_bits cfg.width
  have dividend : X ^ 8 * gfPoly reg + X ^ cfg.width.bits * gfPoly b
      = X ^ 8 * gfPoly (reg ^^^ byteAtTop cfg.width.bits b) := by
    rw [gfPoly_xor, gfPoly_byteAtTop wide, mul_add, ← mul_assoc, ← pow_add, Nat.add_sub_cancel' wide]
  rw [dividend, crcStep_eq_divMsb plain]
  exact generator_dvd_iterate_divStepMsb_sub cfg.polynomial _ 8

end Sys2Proof.Proofs
end

section
/-! The port and the table memory: a command word taken is answered once, and table writes are free in their order. -/

namespace Sys2Proof.Proofs

open Sys2Proof.Machine Sys2Proof.Laws

/-! ### One response per command -/

/-- A command leaves the inputs that wait and adds one response (R70, R75). -/
theorem exec_adds_one_response {i : Instr} {s t : State} (h : exec i s = .next t) :
    t.inputs = s.inputs ∧ ∃ r, t.responses = r :: s.responses := by
  obtain ⟨c, -, e⟩ | ⟨c, -, -, e⟩ | ⟨-, v, e⟩ | ⟨-, v, e⟩ := exec_cases i s <;> cases e.symm.trans h
  · exact ⟨rfl, .err c, rfl⟩
  · exact ⟨rfl, .ok 0, rfl⟩
  · exact ⟨rfl, .ok 0, rfl⟩
  · exact ⟨rfl, .ok v, rfl⟩

/-- Settles O12: a word the decoder refuses is answered with its cause, and one that decodes by its command. -/
theorem oneResponsePerCommand : Obligations.OneResponsePerCommand := by
  intro s t cw rest hi h
  cases d : decode cw with
  | error c =>
    cases (step_refused hi d).symm.trans h
    exact ⟨rfl, .err c, rfl⟩
  | ok i =>
    rw [step_executes hi d] at h
    exact exec_adds_one_response h

/-! ### Writes to the table in any order -/

/-- After writing `f i` at each `i` of a list, the indices of the list read `f` and the others what they held. -/
theorem tblRead_foldl_tblWrite {w : Nat} (f : Byte → BitVec w) (order : List Byte) (t : Table w) (j : Byte) :
    tblRead (order.foldl (fun t i => tblWrite t i (f i)) t) j = if j ∈ order then f j else tblRead t j := by
  induction order generalizing t with
  | nil => rfl
  | cons i rest ih =>
    rw [List.foldl_cons, ih]
    by_cases later : j ∈ rest
    · rw [if_pos later, if_pos (List.mem_cons_of_mem i later)]
    · rw [if_neg later]
      by_cases now : i = j
      · subst now
        rw [tblRead_tblWrite_same, if_pos List.mem_cons_self]
      · rw [tblRead_tblWrite_other t i j (f i) now, if_neg (List.not_mem_cons_of_ne_of_not_mem (Ne.symm now) later)]

/-- Settles O29: every index is in the list, so each reads its `table_entry`, as in the generated table. -/
theorem tableWriteOrderIsFree : Obligations.TableWriteOrderIsFree := by
  intro cfg order t complete
  apply table_ext
  intro j
  rw [tblRead_foldl_tblWrite, if_pos (complete j), tblRead_tablegen]

end Sys2Proof.Proofs
end

section
/-! The encoding: the decoder's equation per opcode, its inverse, the written digits of a command word and the parts of
a response word. -/

namespace Sys2Proof.Proofs

open Sys2Proof.Machine Sys2Proof.Laws

/-! ### The opcode map, one equation per opcode (R76) -/

theorem decode_new {cw : CommandWord} (h : opcodeOf cw = 0x1#4) :
    decode cw = .ok (.new (unpackCfg (payloadOf cw))) := by
  simp [decode, h]

theorem decode_reset {cw : CommandWord} (h : opcodeOf cw = 0x2#4) :
    decode cw = ifReservedZero (payloadOf cw) .reset := by
  simp [decode, h]

theorem decode_update {cw : CommandWord} (h : opcodeOf cw = 0x3#4) :
    decode cw = ifReservedZero ((payloadOf cw).extractLsb' 8 188) (.update ((payloadOf cw).extractLsb' 0 8)) := by
  simp [decode, h]

theorem decode_checksum {cw : CommandWord} (h : opcodeOf cw = 0x4#4) :
    decode cw = ifReservedZero (payloadOf cw) .checksum := by
  simp [decode, h]

theorem decode_match {cw : CommandWord} (h : opcodeOf cw = 0x5#4) :
    decode cw
      = ifReservedZero ((payloadOf cw).extractLsb' 64 132) (.matchExpected ((payloadOf cw).extractLsb' 0 64)) := by
  simp [decode, h]

theorem opcode_cases (op : BitVec 4) :
    (op = 0x0#4 ∨ 0x6#4 ≤ op) ∨ op = 0x1#4 ∨ op = 0x2#4 ∨ op = 0x3#4 ∨ op = 0x4#4 ∨ op = 0x5#4 := by
  revert op; decide

/-- R77: the opcodes 0x0 and 0x6 to 0xF encode no command. -/
theorem decode_of_reserved_opcode {cw : CommandWord} (h : opcodeOf cw = 0x0#4 ∨ 0x6#4 ≤ opcodeOf cw) :
    decode cw = .error .illegalOpcode := by
  have noCommand : ∀ op : BitVec 4, op = 0x0#4 ∨ 0x6#4 ≤ op →
      op ≠ 0x1#4 ∧ op ≠ 0x2#4 ∧ op ≠ 0x3#4 ∧ op ≠ 0x4#4 ∧ op ≠ 0x5#4 := by decide
  obtain ⟨n1, n2, n3, n4, n5⟩ := noCommand _ h
  simp [decode, n1, n2, n3, n4, n5]

theorem ifReservedZero_zero {n : Nat} (i : Instr) : ifReservedZero (0#n) i = .ok i := if_pos rfl

theorem ifReservedZero_ne_zero {n : Nat} {r : BitVec n} (h : r ≠ 0#n) (i : Instr) :
    ifReservedZero r i = .error .illegalOperand := if_neg h

/-! ### Decoding and encoding are inverse -/

theorem extract_high_append {m n : Nat} (a : BitVec m) (b : BitVec n) : (a ++ b).extractLsb' n m = a := by
  rw [extract_append_high a b n m (Nat.le_refl n), Nat.sub_self, extract_self]

theorem extract_low_append {m n : Nat} (a : BitVec m) (b : BitVec n) : (a ++ b).extractLsb' 0 n = b := by
  rw [extract_append_low a b 0 n (by omega), extract_self]

theorem decode_encode (i : Instr) : decode (encode i) = .ok i := by
  have op := opcodeOf_encode i
  have payload := payloadOf_encode i
  cases i with
  | new c => rw [decode_new op, payload, Instr.payload, unpack_pack]
  | reset => rw [decode_reset op, payload]; exact ifReservedZero_zero _
  | update b =>
    rw [decode_update op, payload, Instr.payload, extract_high_append, extract_low_append]
    exact ifReservedZero_zero _
  | checksum => rw [decode_checksum op, payload]; exact ifReservedZero_zero _
  | matchExpected e =>
    rw [decode_match op, payload, Instr.payload, extract_high_append, extract_low_append]
    exact ifReservedZero_zero _

/-- A word that decodes has the opcode and the payload of its command. -/
theorem fields_of_decode {cw : CommandWord} {i : Instr} (h : decode cw = .ok i) :
    i.opcode = opcodeOf cw ∧ i.payload = payloadOf cw := by
  obtain reserved | op | op | op | op | op := opcode_cases (opcodeOf cw)
  · rw [decode_of_reserved_opcode reserved] at h; cases h
  · rw [decode_new op] at h
    cases h
    exact ⟨op.symm, pack_unpack _⟩
  · rw [decode_reset op] at h
    obtain ⟨zero, rfl⟩ := ifReservedZero_ok h
    exact ⟨op.symm, zero.symm⟩
  · rw [decode_update op] at h
    obtain ⟨zero, rfl⟩ := ifReservedZero_ok h
    exact ⟨op.symm, append_zero_high (n := 188) (m := 8) (payloadOf cw) zero⟩
  · rw [decode_checksum op] at h
    obtain ⟨zero, rfl⟩ := ifReservedZero_ok h
    exact ⟨op.symm, zero.symm⟩
  · rw [decode_match op] at h
    obtain ⟨zero, rfl⟩ := ifReservedZero_ok h
    exact ⟨op.symm, append_zero_high (n := 132) (m := 64) (payloadOf cw) zero⟩

theorem encode_of_decode {cw : CommandWord} {i : Instr} (h : decode cw = .ok i) : encode i = cw := by
  obtain ⟨op, payload⟩ := fields_of_decode h
  rw [encode, op, payload]
  exact append_extract (n := 4) (m := 196) cw

/-- The table's numbering of the bits is that of the word as a number. -/
theorem decodeTableWord_of_decode {cw : CommandWord} {i : Instr} (h : decode cw = .ok i) :
    decodeTableWord 200 cw.toNat = some i := by
  rw [decodeTableWord, Nat.mod_eq_of_lt cw.isLt, BitVec.ofNat_toNat, BitVec.setWidth_eq, h]

/-- Settles O1: the opcode and the payload are read back from the word, and each operand from the payload. -/
theorem decodeOfEncodeGivesTheCommandBack : Obligations.DecodeOfEncodeGivesTheCommandBack :=
  fun i => ⟨decode_encode i, decodeTableWord_of_decode (decode_encode i)⟩

/-- Settles O2: a word that decodes is the opcode and the payload of its command, one after the other. -/
theorem decodedWordIsTheCommandsWord : Obligations.DecodedWordIsTheCommandsWord :=
  fun _ _ => encode_of_decode

theorem decode_of_encode_eq {cw : CommandWord} {i : Instr} (h : encode i = cw) : decode cw = .ok i :=
  h ▸ decode_encode i

/-- Settles O3: each of the five words is the encoding of its command. -/
theorem exampleWordsDecode : Obligations.ExampleWordsDecode :=
  ⟨decode_of_encode_eq (by decide), decode_of_encode_eq (by decide), decode_of_encode_eq (by decide),
    decode_of_encode_eq (by decide), decode_of_encode_eq (by decide)⟩

/-! ### The hexadecimal digits of a command word (R84) -/

/-- A hexadecimal digit of a word is a slice of four bits. -/
theorem hexDigits_toNat {w : Nat} (n : Nat) (x : BitVec w) :
    hexDigits n x.toNat = ((List.range n).map fun k => x.extractLsb' (4 * k) 4).reverse := rfl

theorem hexDigits_zero (n : Nat) : hexDigits n 0 = List.replicate n 0#4 := by
  simp [hexDigits]

theorem hexDigits_one (digit : BitVec 4) : hexDigits 1 digit.toNat = [digit] := by
  rw [hexDigits_toNat]
  exact congrArg (· :: []) (extract_self digit)

/-- The digits of a concatenation whose lower part is a whole number of digits. -/
theorem hexDigits_append (m n : Nat) {p q : Nat} (a : BitVec p) (b : BitVec q) (whole : q = 4 * n) :
    hexDigits (m + n) (a ++ b).toNat = hexDigits m a.toNat ++ hexDigits n b.toNat := by
  have low : ∀ k ∈ List.range n, (a ++ b).extractLsb' (4 * k) 4 = b.extractLsb' (4 * k) 4 := fun k hk =>
    extract_append_low a b _ 4 (by have := List.mem_range.mp hk; omega)
  have high (k : Nat) : (a ++ b).extractLsb' (4 * (n + k)) 4 = a.extractLsb' (4 * k) 4 := by
    rw [extract_append_high a b _ 4 (by omega), show 4 * (n + k) - q = 4 * k by omega]
  simp only [hexDigits_toNat, Nat.add_comm m n, List.range_add, List.map_append, List.map_map, Function.comp_def,
    high, List.map_congr_left low, List.reverse_append]

/-- Every command word starts with its opcode as a digit. -/
theorem commandDigits_encode (i : Instr) :
    commandDigits (encode i) = i.opcode :: hexDigits 49 i.payload.toNat := by
  rw [commandDigits, encode, hexDigits_append 1 49 _ _ rfl, hexDigits_one, List.singleton_append]

theorem hexDigits_zero_append (m n : Nat) {p q : Nat} (b : BitVec q) (whole : q = 4 * n) :
    hexDigits (m + n) (0#p ++ b).toNat = List.replicate m 0#4 ++ hexDigits n b.toNat := by
  rw [hexDigits_append m n _ b whole, BitVec.toNat_zero, hexDigits_zero]

theorem hexDigits_packCfg (c : CfgObj) :
    hexDigits 49 (packCfg c).toNat = cfgDigit c :: (hexDigits 16 c.polynomial.toNat
      ++ hexDigits 16 c.initialValue.toNat ++ hexDigits 16 c.finalXorValue.toNat) := by
  change hexDigits 49 (cfgDigit c ++ c.polynomial ++ c.initialValue ++ c.finalXorValue).toNat = _
  rw [hexDigits_append 33 16 _ c.finalXorValue rfl, hexDigits_append 17 16 _ c.initialValue rfl,
    hexDigits_append 1 16 _ c.polynomial rfl, hexDigits_one]
  rfl

/-- Settles O4: the opcode is a digit, and each part of the payload is a whole number of digits. -/
theorem commandWordDigits : Obligations.CommandWordDigits := by
  intro i
  rw [commandDigits_encode]
  cases i with
  | new c => exact congrArg (1#4 :: ·) (hexDigits_packCfg c)
  | reset => exact congrArg (2#4 :: ·) (hexDigits_zero 49)
  | update b => exact congrArg (3#4 :: ·) (hexDigits_zero_append 47 2 b rfl)
  | checksum => exact congrArg (4#4 :: ·) (hexDigits_zero 49)
  | matchExpected e => exact congrArg (5#4 :: ·) (hexDigits_zero_append 33 16 e rfl)

/-! ### The parts of a response word (R75) -/

theorem responseParts_append (err : BitVec 1) (cause : BitVec 2) (value : Word) :
    responseParts (err ++ cause ++ value) = (err, cause, value) := by
  have errBit : (err ++ cause ++ value).extractLsb' 66 1 = err := by
    rw [extract_append_high _ value 66 1 (by omega)]
    exact extract_high_append err cause
  have causeBits : (err ++ cause ++ value).extractLsb' 64 2 = cause := by
    rw [extract_append_high _ value 64 2 (by omega)]
    exact extract_low_append err cause
  have valueBits : (err ++ cause ++ value).extractLsb' 0 64 = value := extract_low_append _ value
  rw [responseParts, errBit, causeBits, valueBits]

/-- Settles O5: a response word is the concatenation of its three parts. -/
theorem responseWordParts : Obligations.ResponseWordParts :=
  ⟨fun v => responseParts_append 0#1 0#2 v, responseParts_append 1#1 1#2 0#64, responseParts_append 1#1 2#2 0#64,
    responseParts_append 1#1 3#2 0#64⟩

end Sys2Proof.Proofs
end

section
/-! The width checks of the operands, what the results answer, and the check order over the bits of the word. -/

namespace Sys2Proof.Proofs

open Sys2Proof.Machine Sys2Proof.Laws

/-! ### The width check of a carrier (R80) -/

theorem fits_iff {w : Nat} {field : Word} : fits w field = true ↔ ∀ k, w ≤ k → field.getLsbD k = false := by
  rw [fits, beq_iff_eq]
  constructor
  · intro shifted k hk
    have bit := congrArg (·.getLsbD (k - w)) shifted
    simpa [Nat.add_sub_cancel' hk] using bit
  · intro high
    ext j hj
    simp [high (w + j) (Nat.le_add_right w j)]

/-- A carrier that does not fit has a bit at or above `w`. -/
theorem not_fits_iff {w : Nat} {field : Word} :
    ¬ fits w field = true ↔ ∃ k, w ≤ k ∧ k < 64 ∧ field.getLsbD k = true := by
  rw [fits_iff]
  constructor
  · intro h
    push Not at h
    obtain ⟨k, hk, bit⟩ := h
    rw [ne_eq, Bool.not_eq_false] at bit
    exact ⟨k, hk, BitVec.lt_of_getLsbD bit, bit⟩
  · rintro ⟨k, hk, -, bit⟩ high
    rw [high k hk] at bit
    cases bit

theorem not_fits_of_bit {w k : Nat} {field : Word} (hk : w ≤ k) (bit : field.getLsbD k = true) :
    ¬ fits w field = true :=
  not_fits_iff.mpr ⟨k, hk, BitVec.lt_of_getLsbD bit, bit⟩

/-- A configuration object that does not fit has a bit at or above `w` in one of its numeric fields (R78 d). -/
theorem not_cfgFits_iff {c : CfgObj} :
    ¬ cfgFits c = true ↔ ∃ k, c.width.bits ≤ k ∧ k < 64 ∧
      (c.polynomial.getLsbD k = true ∨ c.initialValue.getLsbD k = true ∨ c.finalXorValue.getLsbD k = true) := by
  simp only [cfgFits, Bool.and_eq_true, not_and_or, not_fits_iff, ← exists_or, ← and_or_left, or_assoc]

/-- Settles O22: a field with a bit at or above the width does not fit. -/
theorem newRefusesOverWideFields : Obligations.NewRefusesOverWideFields := by
  intro c s k hk bit
  have inWord : k < 64 := by
    obtain bit | bit | bit := bit <;> exact BitVec.lt_of_getLsbD bit
  exact exec_new_of_not_fits (not_cfgFits_iff.mpr ⟨k, hk, inWord, bit⟩) s

/-- Settles O41: an operand with a bit at or above the width does not fit. -/
theorem matchRefusesOverWideValues : Obligations.MatchRefusesOverWideValues :=
  fun _ _ _ configured hk bit => exec_match_of_not_fits configured (not_fits_of_bit hk bit)

/-! ### The value of a checksum -/

theorem finalize_eq (cfg : Configuration) (reg : cfg.Reg) :
    finalize cfg reg
      = (if cfg.reflectOutput ≠ cfg.reflectInput then rev reg else reg) ^^^ cfg.finalXorValue := by
  simp [finalize]

/-- Settles O39: the register is reversed in the two cases where the reflection flags differ. -/
theorem checksumRespondsTheFinalizedRegister : Obligations.ChecksumRespondsTheFinalizedRegister := by
  intro s configured
  rw [exec_checksum configured, finalize_eq]
  cases hi : s.engine.cfg.reflectInput <;> cases ho : s.engine.cfg.reflectOutput <;> rfl

theorem zext64_toNat_lt {w : Nat} (v : BitVec w) : (zext64 v).toNat < 2 ^ w := by
  rw [zext64, BitVec.toNat_setWidth]
  exact Nat.lt_of_le_of_lt (Nat.mod_le _ _) v.isLt

/-- Settles O43: a response of `CHECKSUM` is a zero-extended `w`-bit value; an unconfigured engine responds an error. -/
theorem checksumsFitTheWidth : Obligations.ChecksumsFitTheWidth := by
  intro s t v h responds
  cases configured : s.engine.configured with
  | false =>
    cases (exec_of_unconfigured (i := .checksum) configured nofun).symm.trans h
    cases responds
  | true =>
    cases (exec_checksum configured).symm.trans h
    cases responds
    exact zext64_toNat_lt _

/-! ### The width check of a command -/

/-- Step 4 of the check order (R81) for an engine whose width is `w`: the operands of the command fit. -/
def operandsFit (w : Nat) : Instr → Bool
  | .new c => cfgFits c
  | .matchExpected e => fits w e
  | _ => true

theorem exec_of_operandsFit {i : Instr} {s : State} (ready : i.opcode = 0x1#4 ∨ s.engine.configured = true)
    (f : operandsFit s.engine.cfg.width.bits i = true) :
    ∃ t v, exec i s = .next t ∧ t.inputs = s.inputs ∧ t.responses = .ok v :: s.responses := by
  cases i with
  | new c => exact ⟨_, _, exec_new_of_fits f s, rfl, rfl⟩
  | reset => exact ⟨_, _, exec_reset (ready.resolve_left (by simp [Instr.opcode])), rfl, rfl⟩
  | update b => exact ⟨_, _, exec_update (ready.resolve_left (by simp [Instr.opcode])) b, rfl, rfl⟩
  | checksum => exact ⟨_, _, exec_checksum (ready.resolve_left (by simp [Instr.opcode])), rfl, rfl⟩
  | matchExpected e => exact ⟨_, _, exec_match_of_fits (ready.resolve_left (by simp [Instr.opcode])) f, rfl, rfl⟩

theorem exec_of_not_operandsFit {i : Instr} {s : State} (ready : i.opcode = 0x1#4 ∨ s.engine.configured = true)
    (f : ¬ operandsFit s.engine.cfg.width.bits i = true) : exec i s = .next (raise .illegalOperand s) := by
  cases i with
  | new c => exact exec_new_of_not_fits f s
  | matchExpected e => exact exec_match_of_not_fits (ready.resolve_left (by simp [Instr.opcode])) f
  | reset => exact absurd rfl f
  | update b => exact absurd rfl f
  | checksum => exact absurd rfl f

/-! ### The checks over the bits of the word -/

/-- The opcode is none of the five (R77). -/
def ReservedOpcode (cw : CommandWord) : Prop := opcodeOf cw = 0x0#4 ∨ 0x6#4 ≤ opcodeOf cw

/-- A payload bit that the command of the opcode reserves is set (R78 a, b, c). -/
def ReservedBitsSet (cw : CommandWord) : Prop :=
  ((opcodeOf cw = 0x2#4 ∨ opcodeOf cw = 0x4#4) ∧ payloadOf cw ≠ 0#196) ∨
    (opcodeOf cw = 0x3#4 ∧ cw.extractLsb' 8 188 ≠ 0#188) ∨ (opcodeOf cw = 0x5#4 ∧ cw.extractLsb' 64 132 ≠ 0#132)

/-- A numeric operand in the word has a bit at or above its width, `w` being that of the engine (R78 d, e). -/
def OverWide (w : Nat) (cw : CommandWord) : Prop :=
  (opcodeOf cw = 0x1#4 ∧ ∃ k : Nat, 8 <<< (cw.extractLsb' 194 2).toNat ≤ k ∧ k < 64 ∧
      (cw.getLsbD (128 + k) = true ∨ cw.getLsbD (64 + k) = true ∨ cw.getLsbD k = true)) ∨
    (opcodeOf cw = 0x5#4 ∧ ∃ k : Nat, w ≤ k ∧ k < 64 ∧ cw.getLsbD k = true)

theorem extract_payloadOf (cw : CommandWord) (start len : Nat) (h : start + len ≤ 196) :
    (payloadOf cw).extractLsb' start len = cw.extractLsb' start len := by
  ext j hj
  simp [payloadOf, show start + j < 196 by omega]

theorem decode_of_reservedBitsSet {cw : CommandWord} (h : ReservedBitsSet cw) : decode cw = .error .illegalOperand := by
  obtain ⟨op | op, set⟩ | ⟨op, set⟩ | ⟨op, set⟩ := h
  · rw [decode_reset op, ifReservedZero_ne_zero set]
  · rw [decode_checksum op, ifReservedZero_ne_zero set]
  · rw [decode_update op, extract_payloadOf cw 8 188 (by omega), ifReservedZero_ne_zero set]
  · rw [decode_match op, extract_payloadOf cw 64 132 (by omega), ifReservedZero_ne_zero set]

/-- Past the checks that need no width every word decodes. -/
theorem decode_ok_of_unreserved {cw : CommandWord} (opcode : ¬ ReservedOpcode cw) (bits : ¬ ReservedBitsSet cw) :
    ∃ i, decode cw = .ok i := by
  have clear {n : Nat} {r : BitVec n} (i : Instr) (set : ¬ r ≠ 0#n) : ifReservedZero r i = .ok i :=
    if_pos (not_not.mp set)
  obtain reserved | op | op | op | op | op := opcode_cases (opcodeOf cw)
  · exact absurd reserved opcode
  · exact ⟨_, decode_new op⟩
  · exact ⟨_, (decode_reset op).trans (clear _ fun set => bits (.inl ⟨.inl op, set⟩))⟩
  · refine ⟨_, (decode_update op).trans (clear _ fun set => bits (.inr (.inl ⟨op, ?_⟩)))⟩
    rwa [extract_payloadOf cw 8 188 (by omega)] at set
  · exact ⟨_, (decode_checksum op).trans (clear _ fun set => bits (.inl ⟨.inr op, set⟩))⟩
  · refine ⟨_, (decode_match op).trans (clear _ fun set => bits (.inr (.inr ⟨op, ?_⟩)))⟩
    rwa [extract_payloadOf cw 64 132 (by omega)] at set

theorem getLsbD_extract_payloadOf (cw : CommandWord) (start : Nat) {len k : Nat} (hk : k < len)
    (h : start + len ≤ 196) : ((payloadOf cw).extractLsb' start len).getLsbD k = cw.getLsbD (start + k) := by
  rw [extract_payloadOf cw start len h, BitVec.getLsbD_extractLsb', decide_eq_true hk, Bool.true_and]

/-- The numeric fields of `NEW`, read in the word (R71, R72). -/
theorem not_cfgFits_unpackCfg_iff (cw : CommandWord) :
    ¬ cfgFits (unpackCfg (payloadOf cw)) = true ↔
      ∃ k : Nat, 8 <<< (cw.extractLsb' 194 2).toNat ≤ k ∧ k < 64 ∧
        (cw.getLsbD (128 + k) = true ∨ cw.getLsbD (64 + k) = true ∨ cw.getLsbD k = true) := by
  have width : (unpackCfg (payloadOf cw)).width.bits = 8 <<< (cw.extractLsb' 194 2).toNat := by
    rw [unpackCfg, bits_ofSel, extract_payloadOf cw 194 2 (by omega)]
  rw [not_cfgFits_iff, width]
  refine exists_congr fun k => and_congr_right fun _ => and_congr_right fun hk => ?_
  rw [unpackCfg, getLsbD_extract_payloadOf cw 128 hk (by omega), getLsbD_extract_payloadOf cw 64 hk (by omega),
    getLsbD_extract_payloadOf cw 0 hk (by omega), Nat.zero_add]

/-- The operand of `MATCH`, read in the word (R71, R74). -/
theorem not_fits_match_iff (cw : CommandWord) (w : Nat) :
    ¬ fits w ((payloadOf cw).extractLsb' 0 64) = true ↔ ∃ k : Nat, w ≤ k ∧ k < 64 ∧ cw.getLsbD k = true := by
  rw [not_fits_iff]
  refine exists_congr fun k => and_congr_right fun _ => and_congr_right fun hk => ?_
  rw [getLsbD_extract_payloadOf cw 0 hk (by omega), Nat.zero_add]

/-- The bits of the word show whether the operands of its command fit. -/
theorem overWide_iff {cw : CommandWord} {i : Instr} (d : decode cw = .ok i) (w : Nat) :
    OverWide w cw ↔ ¬ operandsFit w i = true := by
  have op : opcodeOf cw = i.opcode := (fields_of_decode d).1.symm
  have noOperand (fit : operandsFit w i = true) (n1 : i.opcode ≠ 0x1#4) (n5 : i.opcode ≠ 0x5#4) :
      OverWide w cw ↔ ¬ operandsFit w i = true := by
    simp [OverWide, op, n1, n5, fit]
  cases i with
  | new c =>
    rw [decode_new op] at d
    cases d
    simpa [OverWide, op, Instr.opcode, operandsFit] using (not_cfgFits_unpackCfg_iff cw).symm
  | matchExpected e =>
    rw [decode_match op] at d
    obtain ⟨-, operand⟩ := ifReservedZero_ok d
    cases operand
    simpa [OverWide, op, Instr.opcode, operandsFit] using (not_fits_match_iff cw w).symm
  | reset => exact noOperand rfl (by decide) (by decide)
  | update b => exact noOperand rfl (by simp [Instr.opcode]) (by simp [Instr.opcode])
  | checksum => exact noOperand rfl (by decide) (by decide)

/-- Settles O8: the first two checks are the decoder's; past them the word decodes, and the last three cases are those
of its command. -/
theorem checksHappenInOrder : Obligations.ChecksHappenInOrder := by
  intro s cw rest hi op refusedWith reservedOpcode reservedBitsSet needsConfiguration overWide
  have decodes (opcode : ¬ reservedOpcode) (bits : ¬ reservedBitsSet) :
      ∃ i, decode cw = .ok i ∧ i.opcode = op ∧ step s = exec i { s with inputs := rest } := by
    obtain ⟨i, d⟩ := decode_ok_of_unreserved opcode bits
    exact ⟨i, d, (fields_of_decode d).1, step_executes hi d⟩
  have ready (h : ¬ needsConfiguration) : op = 0x1#4 ∨ s.engine.configured = true := by
    by_cases new : op = 0x1#4
    · exact .inl new
    · exact .inr (by simpa using fun unconfigured => h ⟨new, unconfigured⟩)
  refine ⟨fun opcode => step_refused hi (decode_of_reserved_opcode opcode),
    fun _ bits => step_refused hi (decode_of_reservedBitsSet bits),
    fun opcode bits unconfigured => ?_, fun opcode bits configured wide => ?_, fun opcode bits configured narrow => ?_⟩
  · obtain ⟨i, -, iop, e⟩ := decodes opcode bits
    have notNew : ∀ c, i ≠ .new c := fun c new => unconfigured.1 (by rw [← iop, new, Instr.opcode])
    exact e.trans (exec_of_unconfigured unconfigured.2 notNew)
  · obtain ⟨i, d, iop, e⟩ := decodes opcode bits
    exact e.trans (exec_of_not_operandsFit (iop ▸ ready configured) ((overWide_iff d _).mp wide))
  · obtain ⟨i, d, iop, e⟩ := decodes opcode bits
    have fit := not_not.mp fun unfit => narrow ((overWide_iff d _).mpr unfit)
    obtain ⟨t, v, ht, inputs, responses⟩ :=
      exec_of_operandsFit (s := { s with inputs := rest }) (iop ▸ ready configured) fit
    exact ⟨i, t, v, d, iop, ht, e.trans ht, inputs, responses⟩

/-! ### The step -/

/-- Settles O6: a word that decodes leaves the port and is executed. -/
theorem stepRunsTheDecodedCommand : Obligations.StepRunsTheDecodedCommand :=
  fun _ _ _ _ => step_executes

end Sys2Proof.Proofs
end

section
/-! Commands presented one after the other at the port, bytes fed in order, and the expansions that end in a checksum. -/

namespace Sys2Proof.Proofs

open Sys2Proof.Machine Sys2Proof.Laws

/-! ### Commands at the port -/

theorem asInputs_append (is js : List Instr) : asInputs (is ++ js) = asInputs is ++ asInputs js :=
  List.map_append

/-- The first of the commands at the port leaves it and is executed; what stands behind it waits. -/
theorem run_command {s t : State} {i : Instr} {is : List Instr} {rest : List HostInput} (k : Nat)
    (h : s.inputs = asInputs (i :: is) ++ rest)
    (e : exec i { s with inputs := asInputs is ++ rest } = .next t) : run (k + 1) s = run k t :=
  run_succ k ((step_executes h (decode_encode i)).trans e)

theorem run_reset {s : State} {is : List Instr} {rest : List HostInput} (k : Nat)
    (configured : s.engine.configured = true) (h : s.inputs = asInputs (.reset :: is) ++ rest) :
    run (k + 1) s = run k
      { engine := { s.engine with crc := s.engine.cfg.initialValue },
        inputs := asInputs is ++ rest,
        responses := .ok 0 :: s.responses } :=
  run_command k h (exec_reset (s := { s with inputs := asInputs is ++ rest }) configured)

theorem run_update {s : State} {b : Byte} {is : List Instr} {rest : List HostInput} (k : Nat)
    (configured : s.engine.configured = true) (h : s.inputs = asInputs (.update b :: is) ++ rest) :
    run (k + 1) s = run k
      { engine := { s.engine with crc := crcStep s.engine.cfg s.engine.table s.engine.crc b },
        inputs := asInputs is ++ rest,
        responses := .ok 0 :: s.responses } :=
  run_command k h (exec_update (s := { s with inputs := asInputs is ++ rest }) configured b)

/-! ### Feeding bytes -/

/-- Responses are newest first: `n` more answers `r` on top of an `r`. -/
theorem replicate_append_cons (n : Nat) (r : Response) (before : List Response) :
    List.replicate n r ++ r :: before = List.replicate (n + 1) r ++ before := by
  rw [List.replicate_succ', List.append_assoc, List.singleton_append]

/-- Bytes fed by `UPDATE` to a configured engine fold the step (R146); what stands behind them at the port waits. -/
theorem run_updates (bytes : List Byte) {s : State} {rest : List HostInput} (configured : s.engine.configured = true)
    (h : s.inputs = asInputs (bytes.map .update) ++ rest) :
    run bytes.length s = .next
      { engine := { s.engine with crc := crcFold s.engine.cfg s.engine.table s.engine.crc bytes },
        inputs := rest,
        responses := List.replicate bytes.length (.ok 0) ++ s.responses } := by
  induction bytes generalizing s with
  | nil =>
    obtain ⟨engine, inputs, responses⟩ := s
    cases h
    rfl
  | cons b bytes ih =>
    rw [List.length_cons, run_update _ configured h, ih, replicate_append_cons]
    · rfl
    · exact configured
    · rfl

/-- Settles O45: the expansion is one `UPDATE` for each byte, in index order. -/
theorem updateSeqFoldsTheBytes : Obligations.UpdateSeqFoldsTheBytes :=
  fun _ _ bytes _ configured => run_updates bytes configured

/-- `RESET` and then bytes: the fold starts at `initialValue`, whatever `CRC` was (R148, R164). -/
theorem run_reset_updates (bytes : List Byte) {s : State} {rest : List HostInput}
    (configured : s.engine.configured = true)
    (h : s.inputs = asInputs (.reset :: bytes.map .update) ++ rest) :
    run (bytes.length + 1) s = .next
      { engine := { s.engine with crc := crcFold s.engine.cfg s.engine.table s.engine.cfg.initialValue bytes },
        inputs := rest,
        responses := List.replicate (bytes.length + 1) (.ok 0) ++ s.responses } := by
  rw [run_reset _ configured h, run_updates bytes (rest := rest), replicate_append_cons]
  · exact configured
  · rfl

/-! ### A checksum of given bytes -/

/-- Settles O46: after `RESET` and the bytes, on a coherent engine the register is the fold over the generated table,
and `CHECKSUM` responds it finalized. -/
theorem computeRespondsTheCrc : Obligations.ComputeRespondsTheCrc := by
  intro presets s bytes rest coherent configured h
  have fed := run_reset_updates bytes (rest := asInputs [.checksum] ++ rest) configured (by
    rw [h, Macro.expand, ← List.cons_append, asInputs_append, List.append_assoc])
  rw [coherent configured] at fed
  exact (run_add _ 1 fed).trans (run_command 0 rfl (exec_checksum configured))

/-- Settles O51: `NEW` of the packed preset leaves a coherent configured engine of that preset, on which the rest of
the expansion is `COMPUTE`. -/
theorem oneShotRespondsThePresetsCrc : Obligations.OneShotRespondsThePresetsCrc := by
  intro presets name s bytes rest h
  have coherent (t : State) : (respond 0 (construct (presets name) t)).Coherent := fun _ => rfl
  exact ⟨_, _, (run_command _ h (exec_new_cfgPack (presets name) _)).trans
    (computeRespondsTheCrc presets _ bytes rest (coherent _) rfl rfl), rfl, rfl⟩

end Sys2Proof.Proofs
end

section
/-! Construction: what an accepted `NEW` leaves, from any state, and the tables and registers of polynomial 0. -/

namespace Sys2Proof.Proofs

open Sys2Proof.Machine Sys2Proof.Laws

/-! ### Polynomial 0 (R104) -/

/-- Without a polynomial a division step is the shift alone, whichever the top bit. -/
theorem divStepMsb_zero {w : Nat} (r : BitVec w) : divStepMsb 0#w r = r <<< 1 := by
  rw [divStepMsb, BitVec.xor_zero, ite_self]

theorem divMsb_zero {w : Nat} (r : BitVec w) : divMsb 0#w r = r <<< 8 := by
  simp only [divMsb, Function.iterate_succ, Function.iterate_zero, Function.comp_apply, id_eq, divStepMsb_zero,
    ← BitVec.shiftLeft_add]

theorem rev_zero (n : Nat) : rev 0#n = 0#n := by
  ext i hi
  simp [rev_getElem]

/-- Eight shifts push the seed byte out of the register; the reflected entry is the reversal of a plain one. -/
theorem tableEntry_zero_polynomial {cfg : Configuration} (h : cfg.polynomial = 0#_) (i : Byte) :
    tableEntry cfg i = 0#_ := by
  have wide := eight_le_bits cfg.width
  cases refin : cfg.reflectInput with
  | false => rw [tableEntry_msb refin, h, divMsb_zero, byteAtTop_shiftLeft wide]
  | true =>
    rw [tableEntry_lsb refin, h, divLsb_eq, rev_byteAtLow wide, divMsb_zero, byteAtTop_shiftLeft wide, rev_zero]

/-- A register moved by `k` bits in the direction of the step: down when input is reflected, up otherwise. -/
def shiftReg (cfg : Configuration) (k : Nat) (reg : cfg.Reg) : cfg.Reg :=
  if cfg.reflectInput then reg >>> k else reg <<< k

theorem shiftReg_zero (cfg : Configuration) (reg : cfg.Reg) : shiftReg cfg 0 reg = reg := by
  rw [shiftReg, BitVec.ushiftRight_zero, BitVec.shiftLeft_zero, ite_self]

theorem shiftReg_add (cfg : Configuration) (j k : Nat) (reg : cfg.Reg) :
    shiftReg cfg (j + k) reg = shiftReg cfg k (shiftReg cfg j reg) := by
  cases refin : cfg.reflectInput <;> simp [shiftReg, refin, BitVec.shiftRight_add, BitVec.shiftLeft_add]

theorem shiftReg_of_width_le {cfg : Configuration} {k : Nat} (h : cfg.width.bits ≤ k) (reg : cfg.Reg) :
    shiftReg cfg k reg = 0#_ := by
  rw [shiftReg, BitVec.ushiftRight_eq_zero h, BitVec.shiftLeft_eq_zero h, ite_self]

theorem crcStep_zero_polynomial {cfg : Configuration} (h : cfg.polynomial = 0#_) (reg : cfg.Reg) (b : Byte) :
    crcStep cfg (tablegen cfg) reg b = shiftReg cfg 8 reg := by
  simp only [crcStep_tablegen, tableEntry_zero_polynomial h, BitVec.xor_zero, shiftReg]

/-- Each byte only moves the register on by eight bits. -/
theorem crcFold_zero_polynomial {cfg : Configuration} (h : cfg.polynomial = 0#_) (reg : cfg.Reg) (bytes : List Byte) :
    crcFold cfg (tablegen cfg) reg bytes = shiftReg cfg (bytes.length * 8) reg := by
  induction bytes generalizing reg with
  | nil => exact (shiftReg_zero cfg reg).symm
  | cons b bytes ih =>
    calc crcFold cfg (tablegen cfg) reg (b :: bytes)
        = crcFold cfg (tablegen cfg) (crcStep cfg (tablegen cfg) reg b) bytes := rfl
      _ = shiftReg cfg (bytes.length * 8) (shiftReg cfg 8 reg) := by rw [crcStep_zero_polynomial h, ih]
      _ = shiftReg cfg ((b :: bytes).length * 8) reg := by
        rw [← shiftReg_add, List.length_cons, Nat.succ_mul, Nat.add_comm]

theorem eight_dvd_bits (w : Width) : 8 ∣ w.bits := by cases w <;> decide

/-- Settles O35: with an all-zero table every byte only shifts, and `w / 8` bytes shift the whole register out. -/
theorem zeroPolynomialForgetsEverything : Obligations.ZeroPolynomialForgetsEverything := by
  intro cfg h
  refine ⟨fun i => (tblRead_tablegen cfg i).trans (tableEntry_zero_polynomial h i), fun reg bytes enough => ?_⟩
  have covered : cfg.width.bits ≤ bytes.length * 8 :=
    (Nat.div_le_iff_le_mul_of_dvd (by decide) (eight_dvd_bits _)).mp enough
  have emptied (r : cfg.Reg) : crcFold cfg (tablegen cfg) r bytes = 0#_ :=
    (crcFold_zero_polynomial h r bytes).trans (shiftReg_of_width_le covered r)
  exact ⟨emptied reg, congrArg (finalize cfg) (emptied cfg.initialValue)⟩

/-! ### NEW -/

/-- A configuration object fits when no numeric field has a bit at or above the width (R78 d). -/
theorem cfgFits_iff {c : CfgObj} :
    cfgFits c = true ↔ ∀ k, c.width.bits ≤ k →
      c.polynomial.getLsbD k = false ∧ c.initialValue.getLsbD k = false ∧ c.finalXorValue.getLsbD k = false := by
  simp only [cfgFits, Bool.and_eq_true, fits_iff, and_assoc, imp_and, forall_and]

/-- Settles O21: fields without a high bit fit, so `NEW` constructs, and the table it installs is the generated one. -/
theorem newConstructsTheEngine : Obligations.NewConstructsTheEngine := fun c s noHighBit =>
  ⟨_, exec_new_of_fits (cfgFits_iff.mpr noHighBit) s, rfl, rfl, rfl, tblRead_tablegen (cfgLatch c), rfl, rfl⟩

/-- Settles O23: `construct` replaces the whole engine, so the one before it is not read. -/
theorem newForgetsTheEarlierEngine : Obligations.NewForgetsTheEarlierEngine := by
  intro c s e fitting
  rw [exec_new_of_fits fitting, exec_new_of_fits fitting]
  rfl

/-- Settles O24: the expansion is one `NEW` of a packed configuration, which always fits and unpacks to itself. -/
theorem everyPresetConstructs : Obligations.EveryPresetConstructs := fun presets name _ _ h =>
  ⟨_, run_command 0 h (exec_new_cfgPack (presets name) _), rfl, rfl, rfl, rfl⟩

end Sys2Proof.Proofs
end

section
/-! The bit-reflection unit and the lookup table: the laws of R122, R125 and R127. -/

namespace Sys2Proof.Proofs

open Sys2Proof.Machine Sys2Proof.Laws

/-! ### The reflection unit (R120 to R122) -/

theorem rev_getLsbD_of_lt {n i : Nat} (h : i < n) (v : BitVec n) : (rev v).getLsbD i = v.getLsbD (n - 1 - i) := by
  rw [rev_getLsbD, decide_eq_true h, Bool.true_and]

/-- Settles O25, by the rule for the bits of a reflection. -/
theorem reflectionReversesTheBits : Obligations.ReflectionReversesTheBits :=
  fun _ v _ h => rev_getLsbD_of_lt h v

theorem rev_allOnes (n : Nat) : rev (BitVec.allOnes n) = BitVec.allOnes n := by
  ext i hi
  simp [rev_getElem, show n - 1 - i < n by omega]

theorem lowByte_rev {n : Nat} (h : 8 ≤ n) (v : BitVec n) : lowByte (rev v) = rev (topByte v) := by
  ext i hi
  have place : n - 8 + (8 - 1 - i) = n - 1 - i := by omega
  simp [lowByte, topByte, rev_getElem, place, show i < n by omega, show 8 - 1 - i < 8 by omega]

/-- The other byte law is the first one of `rev v`, for reflection is an involution. -/
theorem topByte_rev {n : Nat} (h : 8 ≤ n) (v : BitVec n) : topByte (rev v) = rev (lowByte v) := by
  rw [← rev_rev (topByte (rev v)), ← lowByte_rev h, rev_rev]

/-- A value is its own reflection exactly when its bits are a palindrome. -/
theorem rev_eq_self_iff {n : Nat} (v : BitVec n) :
    rev v = v ↔ ∀ i, i < n → v.getLsbD i = v.getLsbD (n - 1 - i) := by
  constructor
  · intro fixed i hi
    rw [← rev_getLsbD_of_lt hi, fixed]
  · intro palindrome
    apply BitVec.eq_of_getLsbD_eq
    intro i hi
    rw [rev_getLsbD_of_lt hi, ← palindrome i hi]

/-- Settles O26: each law is a lemma about `rev`. -/
theorem reflectionLaws : Obligations.ReflectionLaws :=
  ⟨fun _ => rev_rev, fun _ => rev_xor, fun n => ⟨rev_zero n, rev_allOnes n⟩,
    fun _ v k => ⟨rev_ushiftRight v k, rev_shiftLeft v k⟩, fun _ v h => ⟨lowByte_rev h v, topByte_rev h v⟩,
    fun _ => rev_eq_self_iff⟩

/-! ### Table entries (R125, R127) -/

/-- A table entry is the serial form of its index, started at 0 (R144). -/
theorem tableEntry_eq_serialStep (cfg : Configuration) (i : Byte) : tableEntry cfg i = serialStep cfg 0#_ i := by
  cases refin : cfg.reflectInput with
  | false => rw [tableEntry_msb refin, serialStep, refin, if_neg Bool.false_ne_true, BitVec.zero_xor]
  | true => rw [tableEntry_lsb refin, serialStep, refin, if_pos rfl, BitVec.zero_xor]

theorem tableEntry_xor (cfg : Configuration) (a b : Byte) :
    tableEntry cfg (a ^^^ b) = tableEntry cfg a ^^^ tableEntry cfg b := by
  cases refin : cfg.reflectInput with
  | false => simp only [tableEntry_msb refin, byteAtTop_xor, divMsb_xor]
  | true => simp only [tableEntry_lsb refin, byteAtLow_xor, divLsb_xor]

/-- A linear map takes zero to zero. -/
theorem tableEntry_zero (cfg : Configuration) : tableEntry cfg 0x00 = 0#_ :=
  (tableEntry_xor cfg 0x00 0x00).trans BitVec.xor_self

/-- The reflected entry: the LSB-first division is the MSB-first one conjugated by reflection, and the reflected seed
byte is the reversed index at the other end of the register. -/
theorem tableEntry_reflected {cfg : Configuration} (refin : cfg.reflectInput = true) (i : Byte) :
    tableEntry cfg i = rev (tableEntry { cfg with reflectInput := false } (rev i)) := by
  rw [tableEntry_lsb refin, divLsb_eq, rev_byteAtLow (eight_le_bits cfg.width), tableEntry_msb rfl]

/-- Settles O28, by conjugation of the division steps. -/
theorem reflectedEntryIsTheReversedEntry : Obligations.ReflectedEntryIsTheReversedEntry :=
  fun _ i refin => tableEntry_reflected refin i

/-! ### The polynomial's own entry -/

/-- Below the top of the register a single bit only moves up. -/
theorem divStepMsb_twoPow {w k : Nat} (h : k + 1 < w) (p : BitVec w) :
    divStepMsb p (BitVec.twoPow w k) = BitVec.twoPow w (k + 1) := by
  have topClear : (BitVec.twoPow w k).getLsbD (w - 1) = false := by
    simp [BitVec.getLsbD_twoPow, show ¬ k = w - 1 by omega]
  rw [divStepMsb, topClear, if_neg Bool.false_ne_true, BitVec.twoPow_eq, BitVec.twoPow_eq, ← BitVec.shiftLeft_add]

/-- A bit at the top of the register leaves it, and the polynomial takes its place. -/
theorem divStepMsb_twoPow_top {w : Nat} (h : 0 < w) (p : BitVec w) :
    divStepMsb p (BitVec.twoPow w (w - 1)) = p := by
  have topSet : (BitVec.twoPow w (w - 1)).getLsbD (w - 1) = true := by
    simp [h]
  rw [divStepMsb, if_pos topSet, BitVec.twoPow_eq, ← BitVec.shiftLeft_add, BitVec.shiftLeft_eq_zero (by omega),
    BitVec.zero_xor]

theorem iterate_divStepMsb_twoPow {w j : Nat} (k : Nat) (h : j + k < w) (p : BitVec w) :
    (divStepMsb p)^[k] (BitVec.twoPow w j) = BitVec.twoPow w (j + k) := by
  induction k with
  | zero => rfl
  | succ k ih => rw [Function.iterate_succ_apply', ih (by omega), divStepMsb_twoPow (by omega), Nat.add_assoc]

theorem byteAtTop_one (w : Nat) : byteAtTop w 0x01 = BitVec.twoPow w (w - 8) := by
  rw [byteAtTop, BitVec.ofNat_eq_ofNat, BitVec.setWidth_ofNat_one_eq_ofNat_one_of_lt (by decide), BitVec.twoPow_eq]

/-- Seven steps move the bit of index 1 to the top of the register, and the eighth exchanges it for the polynomial. -/
theorem divMsb_byteAtTop_one {w : Nat} (h : 8 ≤ w) (p : BitVec w) : divMsb p (byteAtTop w 0x01) = p := by
  rw [divMsb, byteAtTop_one, Function.iterate_succ_apply', iterate_divStepMsb_twoPow 7 (by omega),
    show w - 8 + 7 = w - 1 by omega, divStepMsb_twoPow_top (by omega)]

theorem tableEntry_one {cfg : Configuration} (plain : cfg.reflectInput = false) :
    tableEntry cfg 0x01 = cfg.polynomial := by
  rw [tableEntry_msb plain, divMsb_byteAtTop_one (eight_le_bits cfg.width)]

/-- The index `0x80` of a reflected table is the index 1 reversed. -/
theorem tableEntry_reflected_top {cfg : Configuration} (refin : cfg.reflectInput = true) :
    tableEntry cfg 0x80 = rev cfg.polynomial := by
  rw [tableEntry_reflected refin, show rev (0x80 : Byte) = 0x01 by decide, tableEntry_one rfl]

/-- Settles O27: the generated table holds `table_entry` at every index, so each law is one of the entries. -/
theorem tableLaws : Obligations.TableLaws := by
  intro cfg
  simp only [tblRead_tablegen]
  exact ⟨tableEntry_zero cfg, tableEntry_xor cfg, tableEntry_one, tableEntry_reflected_top, fun _ _ _ => rfl,
    tableEntry_reflected (cfg := { cfg with reflectInput := true }) rfl, tableEntry_eq_serialStep cfg,
    tableEntry_zero_polynomial⟩

end Sys2Proof.Proofs
end

section
/-! The update: one byte step with the generated table is the serial form in both directions (R144), what follows from
its linearity, and the one lookup of width 8 (R142). -/

namespace Sys2Proof.Proofs

open Sys2Proof.Machine Sys2Proof.Laws

/-! ### The serial form in both directions (R144) -/

/-- The reflected step is the non-reflected one on the reversed register and byte: reflection exchanges the two shifts,
the two end bytes and the two tables. -/
theorem crcStep_reflected {cfg : Configuration} (refin : cfg.reflectInput = true) (reg : cfg.Reg) (b : Byte) :
    crcStep cfg (tablegen cfg) reg b
      = rev (crcStep { cfg with reflectInput := false } (tablegen { cfg with reflectInput := false })
          (rev reg) (rev b)) := by
  rw [crcStep_tablegen, if_pos refin, crcStep_tablegen, if_neg Bool.false_ne_true, rev_xor, rev_shiftLeft, rev_rev,
    topByte_rev (eight_le_bits cfg.width), ← rev_xor, ← tableEntry_reflected refin]

/-- With the generated table one reflected step is eight LSB-first division steps. -/
theorem crcStep_eq_divLsb {cfg : Configuration} (refin : cfg.reflectInput = true) (reg : cfg.Reg) (b : Byte) :
    crcStep cfg (tablegen cfg) reg b = divLsb cfg.polynomial (reg ^^^ byteAtLow _ b) := by
  rw [crcStep_reflected refin, crcStep_eq_divMsb rfl, divLsb_eq, rev_xor, rev_byteAtLow (eight_le_bits cfg.width)]

theorem crcStep_eq_serialStep (cfg : Configuration) (reg : cfg.Reg) (b : Byte) :
    crcStep cfg (tablegen cfg) reg b = serialStep cfg reg b := by
  cases refin : cfg.reflectInput with
  | false => rw [crcStep_eq_divMsb refin, serialStep, refin, if_neg Bool.false_ne_true]
  | true => rw [crcStep_eq_divLsb refin, serialStep, refin, if_pos rfl]

/-! ### Linearity -/

/-- The division steps and the placing of the byte are linear, so the serial form is linear in register and byte
together. -/
theorem serialStep_xor (cfg : Configuration) (reg d : cfg.Reg) (b c : Byte) :
    serialStep cfg (reg ^^^ d) (b ^^^ c) = serialStep cfg reg b ^^^ serialStep cfg d c := by
  have regroup (x y : cfg.Reg) : (reg ^^^ d) ^^^ (x ^^^ y) = (reg ^^^ x) ^^^ (d ^^^ y) := by ac_rfl
  cases refin : cfg.reflectInput with
  | false => simp only [serialStep, refin, if_neg Bool.false_ne_true, byteAtTop_xor, regroup, divMsb_xor]
  | true => simp only [serialStep, refin, if_true, byteAtLow_xor, regroup, divLsb_xor]

/-- A difference in the register goes through the step as if its byte were zero (R144 a). -/
theorem crcStep_xor_register (cfg : Configuration) (reg d : cfg.Reg) (b : Byte) :
    crcStep cfg (tablegen cfg) (reg ^^^ d) b
      = crcStep cfg (tablegen cfg) reg b ^^^ crcStep cfg (tablegen cfg) d 0x00 := by
  simpa only [crcStep_eq_serialStep, BitVec.ofNat_eq_ofNat, BitVec.xor_zero] using serialStep_xor cfg reg d b 0x00

/-- A zero byte takes the zero register to zero, which is the index-0 entry of the generated table (R144 b). -/
theorem crcStep_zero (cfg : Configuration) : crcStep cfg (tablegen cfg) 0#_ 0x00 = 0#_ := by
  rw [crcStep_eq_serialStep, ← tableEntry_eq_serialStep, tableEntry_zero]

/-- Settles O33: the step is the serial form, whose steps the statement writes out; (a), (b) and (c) are lemmas. -/
theorem parallelFeedback : Obligations.ParallelFeedback := fun cfg reg d b =>
  ⟨crcStep_eq_serialStep cfg reg b, crcStep_xor_register cfg reg d b, crcStep_zero cfg,
    crcStep_reflected (cfg := { cfg with reflectInput := true }) rfl reg b⟩

/-- Settles O36, by induction on the number of bytes: each step stays at zero. -/
theorem zeroBytesKeepAZeroRegister : Obligations.ZeroBytesKeepAZeroRegister := by
  intro cfg n
  induction n with
  | zero => rfl
  | succ n ih =>
    rw [List.replicate_succ, crcFold, List.foldl_cons, crcStep_zero]
    exact ih

/-! ### UPDATE and the step of width 8 -/

/-- Settles O30: a configured engine takes the step, and the two formulas of R140 and R141 are its definition. -/
theorem updateFeedsOneByte : Obligations.UpdateFeedsOneByte := fun _ b configured => exec_update configured b

theorem lowByte_eq_setWidth {w : Nat} (v : BitVec w) : lowByte v = v.setWidth 8 := by
  ext i hi
  simp [lowByte]

/-- Settles O31: at width 8 the shifted term vanishes in both directions, and the byte looked up is the register. -/
theorem eightBitStepIsOneLookup : Obligations.EightBitStepIsOneLookup := by
  rintro ⟨width, poly, init, xorout, reflectInput, reflectOutput⟩ t reg b (rfl : width = .w8)
  rw [← lowByte_eq_setWidth]
  cases reflectInput with
  | false => exact stepMsb_width8 t reg b
  | true => exact stepLsb_width8 t reg b

end Sys2Proof.Proofs
end

section
/-! Results of a configured engine: what `MATCH` compares, results between fed bytes, the checksum of given bytes as
`VERIFY` and incremental feeding see it, and the parametrised model of R171. -/

namespace Sys2Proof.Proofs

open Sys2Proof.Machine Sys2Proof.Laws

/-! ### What MATCH compares (R163) -/

/-- A carrier that fits is its own operand, zero-extended. -/
theorem zext64_operand {w : Nat} {field : Word} (f : fits w field = true) : zext64 (operand w field) = field := by
  ext j hj
  rw [zext64, operand, BitVec.getElem_setWidth, BitVec.getLsbD_setWidth, ← BitVec.getLsbD_eq_getElem hj]
  by_cases low : j < w
  · rw [decide_eq_true low, Bool.true_and]
  · rw [fits_iff.mp f j (Nat.le_of_not_lt low), Bool.and_false]

theorem zext64_inj {w : Nat} (h : w ≤ 64) {a b : BitVec w} : zext64 a = zext64 b ↔ a = b :=
  ⟨fun e => by rw [← operand_zext64 h a, e, operand_zext64 h], congrArg zext64⟩

/-- Comparing `w`-bit values is comparing their carriers, when the operand's carrier fits. -/
theorem matchBit_operand {w : Nat} (h : w ≤ 64) {e : Word} (f : fits w e = true) (v : BitVec w) :
    matchBit v (operand w e) = if zext64 v = e then 1 else 0 := by
  refine if_congr ?_ rfl rfl
  rw [← zext64_inj h, zext64_operand f]

theorem exec_match {s : State} {e : Word} (configured : s.engine.configured = true)
    (f : fits s.engine.cfg.width.bits e = true) :
    exec (.matchExpected e) s
      = .next (respond (if zext64 (finalize s.engine.cfg s.engine.crc) = e then 1 else 0) s) := by
  rw [exec_match_of_fits configured f, matchBit_operand (bits_le_64 _) f]

/-- Settles O40: an operand without a high bit fits, and then the carriers are compared. -/
theorem matchComparesTheChecksum : Obligations.MatchComparesTheChecksum :=
  fun _ _ configured noHighBit => exec_match configured (fits_iff.mpr noHighBit)

/-! ### Fed bytes with results between them -/

/-- The byte a command feeds, if it feeds one. -/
def fedByte : Instr → Option Byte
  | .update b => some b
  | _ => none

theorem filterMap_fedByte_cons (i : Instr) (is : List Instr) :
    (i :: is).filterMap fedByte = (fedByte i).toList ++ is.filterMap fedByte := by
  cases h : fedByte i <;> simp [h]

theorem crcFold_append (cfg : Configuration) (t : Table cfg.width.bits) (reg : cfg.Reg) (as bs : List Byte) :
    crcFold cfg t reg (as ++ bs) = crcFold cfg t (crcFold cfg t reg as) bs :=
  List.foldl_append

/-- On a configured engine a command that does not restart the register folds the byte it feeds, if any, and answers
by the engine alone. -/
theorem exec_feeds {i : Instr} (continues : i ≠ .reset ∧ ∀ c, i ≠ .new c) {engine : Engine}
    (configured : engine.configured = true) :
    ∃ r, ∀ inputs responses, exec i { engine, inputs, responses } = .next
      { engine := { engine with crc := crcFold engine.cfg engine.table engine.crc (fedByte i).toList },
        inputs,
        responses := r :: responses } := by
  cases i with
  | new c => exact absurd rfl (continues.2 c)
  | reset => exact absurd rfl continues.1
  | update b => exact ⟨_, fun _ _ => exec_update configured b⟩
  | checksum => exact ⟨.ok (zext64 (finalize engine.cfg engine.crc)), fun _ _ => exec_checksum configured⟩
  | matchExpected e =>
    by_cases f : fits engine.cfg.width.bits e = true
    · exact ⟨.ok (matchBit (finalize engine.cfg engine.crc) (operand _ e)),
        fun _ _ => exec_match_of_fits configured f⟩
    · exact ⟨_, fun _ _ => exec_match_of_not_fits configured f⟩

/-- Commands that do not restart the register fold the bytes they feed, in order, whatever stands between them. -/
theorem run_feeds (body : List Instr) {s : State} {rest : List HostInput}
    (continues : ∀ i ∈ body, i ≠ .reset ∧ ∀ c, i ≠ .new c) (configured : s.engine.configured = true)
    (h : s.inputs = asInputs body ++ rest) :
    ∃ responses, run body.length s = .next
      { engine := { s.engine with
          crc := crcFold s.engine.cfg s.engine.table s.engine.crc (body.filterMap fedByte) },
        inputs := rest,
        responses } := by
  induction body generalizing s with
  | nil =>
    obtain ⟨engine, inputs, responses⟩ := s
    cases h
    exact ⟨responses, rfl⟩
  | cons i body ih =>
    obtain ⟨first, others⟩ := List.forall_mem_cons.mp continues
    obtain ⟨r, fed⟩ := exec_feeds first configured
    rw [List.length_cons, run_command body.length h (fed _ s.responses), filterMap_fedByte_cons, crcFold_append]
    exact ih others configured rfl

/-- A result command feeds nothing and does not restart the register. -/
theorem feeds_nothing_of_result {i : Instr} (result : i = .checksum ∨ ∃ e, i = .matchExpected e) :
    (i ≠ .reset ∧ ∀ c, i ≠ .new c) ∧ fedByte i = none := by
  obtain rfl | ⟨e, rfl⟩ := result <;> exact ⟨⟨nofun, nofun⟩, rfl⟩

/-- Settles O42: results feed no byte, so they leave the engine, which alone decides the next response. -/
theorem resultsAreStable : Obligations.ResultsAreStable := by
  intro s body last rest configured results h
  obtain ⟨lastResult, bodyResults⟩ := List.forall_mem_cons.mp results
  have unfed : body.filterMap fedByte = [] :=
    List.filterMap_eq_nil_iff.mpr fun i hi => (feeds_nothing_of_result (bodyResults i hi)).2
  obtain ⟨before, ran⟩ := run_feeds body (rest := asInputs [last] ++ rest)
    (fun i hi => (feeds_nothing_of_result (bodyResults i hi)).1) configured
    (by rw [h, asInputs_append, List.append_assoc])
  rw [unfed] at ran
  obtain ⟨lastContinues, lastUnfed⟩ := feeds_nothing_of_result lastResult
  obtain ⟨r, answer⟩ := exec_feeds lastContinues configured
  rw [lastUnfed] at answer
  exact ⟨_, _, before, r, (run_add _ 1 ran).trans (run_command 0 rfl (answer rest before)),
    answer s.inputs s.responses, rfl, rfl, rfl, rfl⟩

theorem run_reset_feeds (body : List Instr) {s : State} {rest : List HostInput}
    (continues : ∀ i ∈ body, i ≠ .reset ∧ ∀ c, i ≠ .new c) (configured : s.engine.configured = true)
    (h : s.inputs = asInputs (.reset :: body) ++ rest) :
    ∃ responses, run (body.length + 1) s = .next
      { engine := { s.engine with
          crc := crcFold s.engine.cfg s.engine.table s.engine.cfg.initialValue (body.filterMap fedByte) },
        inputs := rest,
        responses } := by
  rw [run_reset _ configured h]
  exact run_feeds body continues configured rfl

/-- Settles O49: `RESET` starts the fold at `initialValue`, and what stands between the bytes does not reach it. -/
theorem incrementalEqualsOneShot : Obligations.IncrementalEqualsOneShot := by
  intro s body rest coherent configured continues h
  obtain ⟨before, fed⟩ := run_reset_feeds body (rest := asInputs [.checksum] ++ rest) continues configured
    (by rw [h, ← List.cons_append, asInputs_append, List.append_assoc])
  rw [coherent configured] at fed
  exact ⟨_, before, (run_add _ 1 fed).trans (run_command 0 rfl (exec_checksum configured)), rfl, rfl⟩

/-! ### VERIFY -/

/-- Settles O47: as for `COMPUTE`, with `MATCH` in the place of `CHECKSUM`. -/
theorem verifyComparesTheCrc : Obligations.VerifyComparesTheCrc := by
  intro presets s bytes e rest coherent configured noHighBit h
  have fed := run_reset_updates bytes (rest := asInputs [.matchExpected e] ++ rest) configured (by
    rw [h, Macro.expand, ← List.cons_append, asInputs_append, List.append_assoc])
  rw [coherent configured] at fed
  exact (run_add _ 1 fed).trans (run_command 0 rfl (exec_match configured (fits_iff.mpr noHighBit)))

theorem ne_add_one {w : Nat} (h : 0 < w) (v : BitVec w) : v ≠ v + 1#w := by
  rw [ne_eq, BitVec.self_eq_add_right, BitVec.one_eq_zero_iff]
  exact h.ne'

/-- Settles O48: the carrier of a `w`-bit value fits, and carriers of different values differ. -/
theorem verifyIsCorrect : Obligations.VerifyIsCorrect := by
  intro presets s bytes rest coherent configured
  have verified (v : s.engine.cfg.Reg) := verifyComparesTheCrc presets s bytes (zext64 v) rest coherent configured
    (fits_iff.mp (fits_zext64 v))
  constructor
  · intro h
    have ran := verified _ h
    rw [if_pos rfl] at ran
    exact ⟨_, _, ran, rfl⟩
  · intro h
    have ran := verified _ h
    have wide : 0 < s.engine.cfg.width.bits := Nat.lt_of_lt_of_le (by decide) (eight_le_bits _)
    rw [if_neg fun same => ne_add_one wide _ ((zext64_inj (bits_le_64 _)).mp same)] at ran
    exact ⟨_, _, ran, rfl⟩

/-! ### The empty input (R168) -/

/-- Settles O50: without bytes the register is still the `initialValue` that `NEW` and `RESET` load. -/
theorem emptyInputChecksum : Obligations.EmptyInputChecksum := by
  intro cfg s rest
  dsimp only
  rw [← finalize_eq]
  refine ⟨rfl, ?_⟩
  rintro (h | ⟨configured, rfl, h⟩)
  · exact ⟨_, (run_command 1 h (exec_new_cfgPack cfg _)).trans (run_command 0 rfl (exec_checksum rfl)), rfl, rfl⟩
  · exact ⟨_, (run_reset 1 configured h).trans (run_command 0 rfl (exec_checksum configured)), rfl, rfl⟩

/-! ### The parametrised model (R171) -/

/-- The register as the parametrised model holds it: MSB-first whatever the flag. -/
def unreflect {w : Nat} (refin : Bool) (reg : BitVec w) : BitVec w := if refin = true then rev reg else reg

theorem rev_divLsb {w : Nat} (p r : BitVec w) : rev (divLsb p r) = divMsb p (rev r) := by
  rw [divLsb_eq, rev_rev]

theorem unreflect_crcStep (cfg : Configuration) (reg : cfg.Reg) (b : Byte) :
    unreflect cfg.reflectInput (crcStep cfg (tablegen cfg) reg b)
      = parametrisedStep cfg.polynomial cfg.reflectInput (unreflect cfg.reflectInput reg) b := by
  rw [crcStep_eq_serialStep]
  cases refin : cfg.reflectInput with
  | false => simp only [unreflect, serialStep, parametrisedStep, refin, if_neg Bool.false_ne_true]
  | true =>
    simp only [unreflect, serialStep, parametrisedStep, refin, if_true, rev_divLsb, rev_xor,
      rev_byteAtLow (eight_le_bits cfg.width)]

theorem unreflect_crcFold (cfg : Configuration) (reg : cfg.Reg) (bytes : List Byte) :
    unreflect cfg.reflectInput (crcFold cfg (tablegen cfg) reg bytes)
      = bytes.foldl (parametrisedStep cfg.polynomial cfg.reflectInput) (unreflect cfg.reflectInput reg) :=
  (List.foldl_hom _ fun r b => (unreflect_crcStep cfg r b).symm).symm

/-- The register reversed when the flags differ is the model's register reversed when `refout` (R160, R171). -/
theorem finalize_eq_unreflect (cfg : Configuration) (reg : cfg.Reg) :
    finalize cfg reg = (if cfg.reflectOutput = true then rev (unreflect cfg.reflectInput reg)
      else unreflect cfg.reflectInput reg) ^^^ cfg.finalXorValue := by
  rw [finalize_eq]
  cases cfg.reflectInput <;> cases cfg.reflectOutput <;> simp [unreflect, rev_rev]

/-- Settles O52: un-reflecting the register carries the fold and the final reversal over to the model's. -/
theorem agreesWithTheParametrisedModel : Obligations.AgreesWithTheParametrisedModel := by
  intro cfg bytes
  rw [crcOf, finalize_eq_unreflect, unreflect_crcFold]
  rfl

end Sys2Proof.Proofs
end

section
/-! Refusals: which causes the decoder and the commands raise, a refused word as one `raise`, and that no step reads
the responses returned before it. -/

namespace Sys2Proof.Proofs

open Sys2Proof.Machine Sys2Proof.Laws

/-! ### The causes of a refusal -/

/-- The decoder raises the causes of the first two checks only (R81). -/
theorem cause_of_decode_error {cw : CommandWord} {c : Cause} (d : decode cw = .error c) :
    c = .illegalOpcode ∨ c = .illegalOperand := by
  by_cases opcode : ReservedOpcode cw
  · cases d.symm.trans (decode_of_reserved_opcode opcode)
    exact .inl rfl
  by_cases bits : ReservedBitsSet cw
  · cases d.symm.trans (decode_of_reservedBitsSet bits)
    exact .inr rfl
  · obtain ⟨i, ok⟩ := decode_ok_of_unreserved opcode bits
    cases d.symm.trans ok

/-- A command that responds an error did nothing but raise it; `NOT_CONFIGURED` comes from an unconfigured engine. -/
theorem exec_eq_raise_of_err {i : Instr} {s t : State} {c : Cause} (h : exec i s = .next t)
    (refused : t.responses = .err c :: s.responses) :
    t = raise c s ∧ (c = .notConfigured → s.engine.configured = false) := by
  obtain ⟨c', cause, e⟩ | ⟨_, -, -, e⟩ | ⟨-, v, e⟩ | ⟨-, v, e⟩ := exec_cases i s <;> cases e.symm.trans h
  · cases refused
    refine ⟨rfl, fun notConfigured => ?_⟩
    obtain ⟨-, unconfigured⟩ | operand := cause
    · exact unconfigured
    · cases notConfigured.symm.trans operand
  · cases refused
  · cases refused
  · cases refused

/-- A step that adds an error took a command word and did nothing but raise it; `NOT_CONFIGURED` comes from an
unconfigured engine. -/
theorem step_eq_raise_of_err {s t : State} {c : Cause} (h : step s = .next t)
    (refused : t.responses = .err c :: s.responses) :
    ∃ cw rest, s.inputs = .command cw :: rest ∧ t = raise c { s with inputs := rest } ∧
      (c = .notConfigured → s.engine.configured = false) := by
  obtain ⟨-, rfl⟩ | ⟨rest, -, rfl⟩ | ⟨cw, rest, c', hi, d, rfl⟩ | ⟨cw, rest, i, hi, -, e⟩ := step_cases h
  · exact absurd refused.symm (List.cons_ne_self _ _)
  · exact absurd refused.symm (List.cons_ne_self _ _)
  · cases refused
    refine ⟨cw, rest, hi, rfl, ?_⟩
    rintro rfl
    obtain opcode | operand := cause_of_decode_error d
    · cases opcode
    · cases operand
  · exact ⟨cw, rest, hi, exec_eq_raise_of_err e refused⟩

/-- The state after a refused word, the word at the port being known. -/
theorem refused_word_eq_raise {s t : State} {cw : CommandWord} {rest : List HostInput} {c : Cause}
    (hi : s.inputs = .command cw :: rest) (h : step s = .next t) (refused : t.responses = .err c :: s.responses) :
    t = raise c { s with inputs := rest } := by
  obtain ⟨cw', rest', hi', e, -⟩ := step_eq_raise_of_err h refused
  cases hi.symm.trans hi'
  exact e

/-- Settles O10: only an unconfigured engine raises `NOT_CONFIGURED`. -/
theorem configuredEngineNeverAnswersNotConfigured : Obligations.ConfiguredEngineNeverAnswersNotConfigured := by
  intro s t configured h refused
  obtain ⟨-, -, -, -, unconfigured⟩ := step_eq_raise_of_err h refused
  exact absurd (configured.symm.trans (unconfigured rfl)) (by decide)

/-- Settles O13: a refused word is taken and its cause raised, and a response word has its three parts. -/
theorem refusedCommandChangesNoState : Obligations.RefusedCommandChangesNoState := by
  intro s t cw rest c hi h refused
  cases refused_word_eq_raise hi h refused
  exact ⟨rfl, rfl, responseParts_append 1#1 (causeCode c) 0#64⟩

/-- Settles O7: the decoder refuses a reserved opcode before the state is looked at. -/
theorem reservedOpcodesAreRefused : Obligations.ReservedOpcodesAreRefused :=
  fun _ _ _ hi opcode => step_refused hi (decode_of_reserved_opcode opcode)

/-! ### Earlier responses are not read -/

/-- The state had the responses `before` been returned before all of its own (newest first). -/
def withEarlier (before : List Response) (s : State) : State := { s with responses := s.responses ++ before }

theorem whenConfigured_withEarlier {before : List Response} {s done done' : State}
    (h : withEarlier before done = done') :
    whenConfigured (withEarlier before s) done' = withEarlier before (whenConfigured s done) := by
  rw [← h, whenConfigured, whenConfigured, apply_ite (withEarlier before)]
  rfl

theorem exec_withEarlier (before : List Response) {i : Instr} {s t : State} (h : exec i s = .next t) :
    exec i (withEarlier before s) = .next (withEarlier before t) := by
  cases i with
  | new c =>
    cases h
    rw [apply_ite (withEarlier before)]
    rfl
  | reset => cases h; exact congrArg Host.Outcome.next (whenConfigured_withEarlier rfl)
  | update b => cases h; exact congrArg Host.Outcome.next (whenConfigured_withEarlier rfl)
  | checksum => cases h; exact congrArg Host.Outcome.next (whenConfigured_withEarlier rfl)
  | matchExpected e =>
    cases h
    exact congrArg Host.Outcome.next (whenConfigured_withEarlier (apply_ite (withEarlier before) _ _ _))

theorem step_withEarlier (before : List Response) {s t : State} (h : step s = .next t) :
    step (withEarlier before s) = .next (withEarlier before t) := by
  obtain ⟨hi, rfl⟩ | ⟨rest, hi, rfl⟩ | ⟨cw, rest, c, hi, d, rfl⟩ | ⟨cw, rest, i, hi, d, e⟩ := step_cases h
  · exact step_idle hi
  · exact step_hardwareReset hi
  · exact step_refused hi d
  · exact (step_executes (s := withEarlier before s) hi d).trans (exec_withEarlier before e)

theorem run_withEarlier (before : List Response) (k : Nat) {s t : State} (h : run k s = .next t) :
    run k (withEarlier before s) = .next (withEarlier before t) := by
  induction k generalizing s with
  | zero => cases h; rfl
  | succ k ih =>
    obtain ⟨u, e⟩ := step_next s
    rw [run_succ k e] at h
    rw [run_succ k (step_withEarlier before e)]
    exact ih h

theorem run_next (k : Nat) (s : State) : ∃ t, run k s = .next t := by
  induction k generalizing s with
  | zero => exact ⟨s, rfl⟩
  | succ k ih =>
    obtain ⟨u, e⟩ := step_next s
    rw [run_succ k e]
    exact ih u

/-- Settles O14: the state after the refused word and the state without the word are one state without responses, each
with its own earlier responses, so both runs are that state's run. -/
theorem refusedCommandLeavesNoTrace : Obligations.RefusedCommandLeavesNoTrace := by
  intro s t cw rest c hi h refused k
  cases refused_word_eq_raise hi h refused
  obtain ⟨w, hw⟩ := run_next k { engine := s.engine, inputs := rest, responses := [] }
  exact ⟨withEarlier (.err c :: s.responses) w, withEarlier s.responses w, w.responses,
    run_withEarlier _ k hw, run_withEarlier _ k hw, rfl, rfl, rfl, rfl⟩

end Sys2Proof.Proofs
end

section
/-! Totality of the step, from the answer of each command and each way a step can go. -/

namespace Sys2Proof.Proofs

/-- Settles O11: each input of the port has its own next state, by `step_next`; for a command word that decodes it is
the one `exec_cases` gives. -/
theorem everyStepGivesANextState : Obligations.EveryStepGivesANextState :=
  step_next

end Sys2Proof.Proofs
end
